-- ==== Sys2Proof/Word.lean ====
section
/-! DEFINITION. The word types of the engine (00_scope.md section 5: u8, u32, u64, all unsigned). Addition on them is
`BitVec` addition, which discards the carry as R7 says. -/

namespace Sys2Proof

/-- `u8`: one message byte, one byte of the buffer, one byte of the digest. -/
abbrev Byte := BitVec 8

/-- `u32`: WORD_BITS = 32 (R5). -/
abbrev Word := BitVec 32

/-- `u64`: LENGTH_BITS = 64 (R5), the width of `total_bits` and of the length field. -/
abbrev Length := BitVec 64

/-- One 16-bit command word, CMD_BITS = 16 (R6, R45). -/
abbrev CmdBits := BitVec 16

end Sys2Proof
end

