-- ==== Sys2Proof/Syntax.lean ====
section
/-! DEFINITION. The commands of the engine (its instructions, 30_encoding.md), the fields of a command word (R45), and
the lines of the assembler (R55, R56). -/

namespace Sys2Proof

/-- A command: one constructor per row of spec/opcode_table.json (R46). -/
inductive Instr where
  /-- INIT (R47, R60). -/
  | init
  /-- UPDATE b (R48, R61): `b` is the DATA field, any byte, taken as is (R50). -/
  | update (b : Byte)
  /-- FINAL (R49, R63). -/
  | final
deriving DecidableEq, Repr

/-- The one format, CMD, of a command word (R45). -/
structure CmdFields where
  /-- OP, bits [15:12]: the operation. -/
  op : BitVec 4
  /-- RSV, bits [11:8]: 0 in every legal command. -/
  rsv : BitVec 4
  /-- DATA, bits [7:0]: the operand byte of UPDATE, 0 in INIT and FINAL. -/
  data : BitVec 8
deriving DecidableEq, Repr

/-- The operand `<byte>` of an assembler line (R55), before its range is checked. -/
inductive AsmOperand where
  /-- `0xNN`. -/
  | hex (n : Nat)
  /-- A decimal integer. -/
  | dec (n : Nat)
  /-- `'c'`, one character. -/
  | chr (c : Char)
deriving DecidableEq, Repr

/-- An assembler line (R55) or pseudo-command (R56), as written, before it is checked. Text is a list of characters. -/
inductive AsmLine where
  /-- A line that is empty or holds only white space or a comment. R55 is silent on such a line: that it is no error is the
  model's choice (notes/assumptions/11.md). -/
  | blank
  | init
  | update (o : AsmOperand)
  | final
  /-- `UPDATE_BYTES b0, b1, …`. -/
  | updateBytes (os : List AsmOperand)
  /-- `UPDATE_STR "text"`. -/
  | updateStr (text : List Char)
  /-- `HASH "text"`. -/
  | hash (text : List Char)
deriving DecidableEq, Repr

end Sys2Proof
end

