-- ==== Sys2Proof/WellFormed.lean ====
section
/-! DEFINITION. The checks on syntax. A term of `Instr` can hold only what its encoding admits (UPDATE's operand is any
byte, R48; INIT and FINAL have none), so every `Instr` is well formed by its type. What CAN be ill formed is a command
word's fields (R51) and an assembler line (R55, R56). -/

namespace Sys2Proof

/-- The fields of one of the 258 legal words: the column "legal words" of R46's table, with R51's three conditions. -/
def CmdFields.legal (c : CmdFields) : Bool :=
  c.rsv == 0 && (c.op == 2 || ((c.op == 1 || c.op == 3) && c.data == 0))

/-- An operand in R55's range: a number in 0..255, or one ASCII character. -/
def AsmOperand.wf : AsmOperand → Bool
  | .hex n => decide (n < 256)
  | .dec n => decide (n < 256)
  | .chr c => decide (c.toNat < 128)

/-- Text of ASCII characters only (R56). -/
def asmTextWf (text : List Char) : Bool := text.all fun c => decide (c.toNat < 128)

/-- A line whose operands are all in range (R55: "an operand outside 0..255 is an assembly error"). -/
def AsmLine.wf : AsmLine → Bool
  | .blank => true
  | .init => true
  | .update o => o.wf
  | .final => true
  | .updateBytes os => os.all AsmOperand.wf
  | .updateStr text => asmTextWf text
  | .hash text => asmTextWf text

end Sys2Proof
end

