-- ==== Sys2Proof/Decode.lean ====
section
/-! DEFINITION. The decoder (R45 to R54), total on 16-bit words and reading no state, and the encoder. -/

namespace Sys2Proof

/-- Why a word is illegal: R51's three conditions. The hardware does not record which (R102); the names and their order
(OP, then RSV, then DATA) are the model's own (notes/assumptions/14.md). -/
inductive IllegalReason where
  /-- OP is 0x0 or 0x4 to 0xF. -/
  | opcode
  /-- OP is 0x1, 0x2 or 0x3 and RSV is not 0. -/
  | reserved
  /-- OP is 0x1 or 0x3, RSV is 0 and DATA is not 0x00. -/
  | data
deriving DecidableEq, Repr

/-- The fields of a word (R45). -/
def CmdFields.ofWord (w : CmdBits) : CmdFields :=
  { op := w.extractLsb' 12 4, rsv := w.extractLsb' 8 4, data := w.extractLsb' 0 8 }

/-- The word of some fields (R45). -/
def CmdFields.toWord (c : CmdFields) : CmdBits := c.op ++ c.rsv ++ c.data

/-- `Decode` (R54), from the fields: the command, or why the word is ILLEGAL (R51). -/
def decode (w : CmdBits) : Except IllegalReason Instr :=
  let c := CmdFields.ofWord w
  if c.op = 1 then
    if c.rsv ≠ 0 then .error .reserved else if c.data ≠ 0 then .error .data else .ok .init
  else if c.op = 2 then
    if c.rsv ≠ 0 then .error .reserved else .ok (.update c.data)
  else if c.op = 3 then
    if c.rsv ≠ 0 then .error .reserved else if c.data ≠ 0 then .error .data else .ok .final
  else .error .opcode

/-- The word of a command (R47 to R49). -/
def encode : Instr → CmdBits
  | .init => 0x1000#16
  | .update b => 0x2000#16 ||| b.zeroExtend 16
  | .final => 0x3000#16

/-- The word the host means by `nbits` bits of number `w`: every command is one 16-bit word (R53), bits above `nbits` 0.
A command word has no byte order of its own: it is presented whole on a 16-bit port (R23, notes/assumptions/14.md). -/
def tableWord (nbits w : Nat) : CmdBits := BitVec.ofNat 16 (w % 2 ^ nbits)

/-- The instruction the decoder reads from a row's word. -/
def decodeTableWord (nbits w : Nat) : Option Instr := (decode (tableWord nbits w)).toOption

end Sys2Proof
end

