-- ==== Sys2Proof/Machine/State.lean ====
section
/-! DEFINITION. The state of one engine (10_state.md), what the host drives on its ports, the faults and refusals of the
model, and the state after reset (R28, R120).

A field that is `none`, or a buffer byte that is not listed, HOLDS NO VALUE: R20's own representation
(notes/assumptions/2.md). -/

namespace Sys2Proof.Machine

/-- The storage of the buffer: address and byte pairs, addresses strictly rising (`Memory.wf` in Machine/Ops.lean). An
address that is not listed holds no value (R20), so no entry can equal what an unlisted address reads as
(notes/assumptions/8.md). -/
abbrev Memory := List Host.Cell

/-- `phase` (R15). The fourth code of the 2-bit register, 0b11, is never written (R15, U9) and cannot be written here. -/
inductive Phase where
  | uninit
  | active
  | done
deriving DecidableEq, Repr

/-- Eight `u32` words, numbered as `H[0..7]` (R14) and `IV[0..7]` (R18) are. -/
structure Words8 where
  w0 : Word
  w1 : Word
  w2 : Word
  w3 : Word
  w4 : Word
  w5 : Word
  w6 : Word
  w7 : Word
deriving DecidableEq, Repr

/-- The working state of one compression (R22): the schedule `W[0..63]`, the registers `a` to `h`, the round counter
(a Nat, which holds 64 after round 63: notes/assumptions/9.md). -/
structure Working where
  W : List Word
  a : Word
  b : Word
  c : Word
  d : Word
  e : Word
  f : Word
  g : Word
  h : Word
  t : Nat
deriving DecidableEq, Repr

/-- What the host drives at one rising edge of `clk` (R23). `none` on `cmdValid` or `cmdWord` is an unknown logic value,
which R131 assumes the host never drives (U17). -/
structure PortEdge where
  rst : Bool
  cmdValid : Option Bool
  cmdWord : Option CmdBits
deriving DecidableEq, Repr

/-- The two errors of the hardware (R101, R102), which the engine takes and goes on after (R103). -/
inductive CmdError where
  /-- UPDATE or FINAL while `phase` is not ACTIVE (R101). -/
  | seqError
  /-- An accepted word that decodes to no command (R102). -/
  | illegalCommand
deriving DecidableEq, Repr

/-- A field that a command reads and that may hold no value. -/
inductive Field where
  | buffer (i : Nat)
  | bufferedLen
  | totalBits
  | digestState
  | phase
deriving DecidableEq, Repr

/-- Why the MODEL stops. `raised` is R106's fault, and `checkedStep` alone answers it. None of the others is an error of the
hardware (those are `CmdError`), and none of them is met from reset by a host that keeps its duties (R131). -/
inductive Fault where
  /-- A command reads a field that holds no value. Raised by UPDATE and FINAL in a state that no run reaches. Safe: R20 says
  "A read of an absent field is a fault of the model, never a number". -/
  | absentField (f : Field)
  /-- A buffer index outside 0..63. Raised by UPDATE and FINAL when `buffered_len` is above 63, which no run reaches (R12).
  Safe: R31 says "A model that meets one anyway faults; it must not wrap the index". -/
  | bufferIndex (i : Nat)
  /-- The host presents a command before the first reset. Raised by the step. Safe: R121 gives every field and every output
  no value then, so whether the engine accepts the word is not said. -/
  | commandBeforeReset
  /-- The host drives an unknown logic value on the command port. Raised by the step. R131: "A model has no move for that
  case". Unsafe in the sense D2 records: a claim says nothing of such a host. -/
  | unknownDrive
  /-- A command raised an error (R101, R102). Raised by `checkedStep` and never by `step`, whose engine goes on (R103). Safe:
  R106 says "A model turns either error into a fault". -/
  | raised (e : CmdError)
deriving DecidableEq, Repr

/-- Why the model gives an instruction no meaning. -/
inductive Refusal where
  /-- Raised by `exec` for an instruction that has no meaning yet (there is none). Safe: the run stops. -/
  | notModelled (mnemonic : String)
deriving DecidableEq, Repr

/-- The state of one engine, and the edges its host has still to drive. -/
structure State where
  /-- `buffer[0..63]` (R11). -/
  buffer : Memory
  /-- `buffered_len` (R12). -/
  bufferedLen : Option Nat
  /-- `total_bits` (R13). -/
  totalBits : Option Length
  /-- `digest_state`, `H[0..7]` (R14). -/
  digestState : Option Words8
  /-- `phase` (R15); holds no value only before the first reset (R121). -/
  phase : Option Phase
  /-- `err_seq` (R16); holds no value only before the first reset (R121). -/
  errSeq : Option Bool
  /-- `err_ill` (R17); holds no value only before the first reset (R121). -/
  errIll : Option Bool
  /-- `W[0..63]`, `a`..`h`, `t` (R22): they hold a value only while a compression runs, never between commands. -/
  work : Option Working
  /-- The MODEL'S OWN field: what the host drives at each edge to come, the next one first. Edges at which `cmd_ready` is 0
  because a command is running are not listed: the engine accepts nothing at them (R24; notes/assumptions/3.md,
  notes/assumptions/5.md). -/
  edges : List PortEdge
deriving DecidableEq, Repr

/-- The state right after reset: the column "after reset" of R28. The empty list of edges is the model's choice
(notes/assumptions/3.md). -/
def State.reset : State :=
  { buffer := []
    bufferedLen := none
    totalBits := none
    digestState := none
    phase := some .uninit
    errSeq := some false
    errIll := some false
    work := none
    edges := [] }

/-- Before the first reset every field holds no value (R121, U12; notes/assumptions/6.md). -/
def State.powerUp : State :=
  { buffer := []
    bufferedLen := none
    totalBits := none
    digestState := none
    phase := none
    errSeq := none
    errIll := none
    work := none
    edges := [] }

end Sys2Proof.Machine
end

