-- ==== Sys2Proof/Machine/Flags.lean ====
section
/-! DEFINITION. The control state as the host sees it: the phase's code (R15), the STATUS word (R25), and setting an error
flag (R101, R102). The engine has no arithmetic flag: a carry is discarded (R7). -/

namespace Sys2Proof.Machine

/-- The 2-bit code of a phase (R15). -/
def Phase.code : Phase → BitVec 2
  | .uninit => 0b00#2
  | .active => 0b01#2
  | .done => 0b10#2

/-- STATUS from its fields: [1:0] PHASE, [2] ERR_SEQ, [3] ERR_ILL, [15:4] 0 (R25). -/
def statusBits (p : Phase) (errSeq errIll : Bool) : BitVec 16 :=
  0#12 ++ BitVec.ofBool errIll ++ BitVec.ofBool errSeq ++ p.code

/-- STATUS of a state; it holds no value before the first reset (R25, R121). -/
def State.statusWord (s : State) : Option (BitVec 16) :=
  match s.phase, s.errSeq, s.errIll with
  | some p, some q, some i => some (statusBits p q i)
  | _, _, _ => none

/-- The flag of an error is set (R101, R102), and nothing else (R103). -/
def State.setErrorFlag (e : CmdError) (s : State) : State :=
  match e with
  | .seqError => { s with errSeq := some true }
  | .illegalCommand => { s with errIll := some true }

end Sys2Proof.Machine
end

