-- ==== Sys2Proof/Config.lean ====
section
/-! DEFINITION. What the spec fixes for every engine (R5), and the OPEN parameters it leaves to an implementation or a
platform (R6, D17, D24). An open parameter is an opaque constant: nothing can be proved of it but the lower bound the
spec gives. No rule depends on one (R6), so no other definition of the model mentions one (notes/assumptions/5.md,
notes/assumptions/12.md). -/

namespace Sys2Proof.Config

/-- BLOCK_BYTES = 64: the bytes of a block and of the `buffer` (R5). -/
def blockBytes : Nat := 64

/-- SCHEDULE_WORDS = 64 (R5). -/
def scheduleWords : Nat := 64

/-- ROUNDS = 64 (R5, R98). -/
def rounds : Nat := 64

/-- DIGEST_BYTES = 32 (R5). -/
def digestBytes : Nat := 32

/-- How far each open latency lies above its least value, 1 cycle (R127). UNVERIFIED: the spec gives no number. -/
opaque latInitAboveOne : Nat

/-- See `latInitAboveOne`. -/
opaque latUpdateAboveOne : Nat

/-- See `latInitAboveOne`. -/
opaque latUpdateBlockAboveOne : Nat

/-- See `latInitAboveOne`; R127 lets LAT_FINAL differ between one and two final blocks, so it is a function of their
number. -/
opaque latFinalAboveOne : Nat → Nat

/-- How far the number of engines of a platform lies above its least value, 1 (R6, D24). -/
opaque nEnginesAboveOne : Nat

/-- LAT_INIT: clock cycles from accepting INIT to `cmd_ready` = 1, at least 1 (R127). -/
def latInit : Nat := latInitAboveOne + 1

/-- LAT_UPDATE: the same for an UPDATE that does not flush (R127). -/
def latUpdate : Nat := latUpdateAboveOne + 1

/-- LAT_UPDATE_BLOCK: the same for an UPDATE that flushes (R127). -/
def latUpdateBlock : Nat := latUpdateBlockAboveOne + 1

/-- LAT_FINAL: the same for a FINAL that compresses `blocks` final blocks (R127). -/
def latFinal (blocks : Nat) : Nat := latFinalAboveOne blocks + 1

/-- N_ENGINES: engine instances on a platform, at least 1 (R6, D24). The model's State is one of them (R10). -/
def nEngines : Nat := nEnginesAboveOne + 1

end Sys2Proof.Config
end

