-- ==== Sys2Proof/Machine/Operands.lean ====
section
/-! DEFINITION. Reading what a command reads. A field that holds no value is a fault of the model, never a number (R20). -/

namespace Sys2Proof.Machine

/-- The value of a field, or the fault of reading a field that holds none (R20). -/
def held {α : Type} (f : Field) : Option α → Except Fault α
  | some v => .ok v
  | none => .error (.absentField f)

/-- `8 * zext_64(buffered_len)` (R70). -/
def bufferedBits (p : Nat) : Length := 8#64 * BitVec.ofNat 64 p

end Sys2Proof.Machine
end

