-- ==== Sys2Proof/Machine/Ops.lean ====
section
/-! DEFINITION. The shared operations: the buffer's primitives (R31, R32), byte order (R33 to R35), and taking an error. -/

namespace Sys2Proof.Machine

/-- What a step answers. -/
abbrev Answer := Host.Outcome State Fault Refusal

/-- A computation that may read an absent field, as an answer. -/
def answer : Except Fault State → Answer
  | .ok s => .next s
  | .error f => .fault f

/-! ### The buffer's storage -/

/-- The canonical form: addresses strictly rising, and all of them in 0..63 (R30). -/
abbrev Memory.wf (m : Memory) : Prop :=
  (m.map Prod.fst).Pairwise (· < ·) ∧ ∀ c ∈ m, c.1 < Config.blockBytes

/-- The byte at an address, if it holds a value. -/
def Memory.get? : Memory → Nat → Option Byte
  | [], _ => none
  | (a, b) :: m, i => if i = a then some b else Memory.get? m i

/-- Store a byte, keeping the addresses rising. -/
def Memory.set : Memory → Nat → Byte → Memory
  | [], i, v => [(i, v)]
  | (a, b) :: m, i, v =>
    if i < a then (i, v) :: (a, b) :: m
    else if i = a then (i, v) :: m
    else (a, b) :: Memory.set m i v

/-- Store bytes at consecutive addresses, in rising order. -/
def Memory.setAll : Memory → Nat → List Byte → Memory
  | m, _, [] => m
  | m, i, v :: vs => Memory.setAll (Memory.set m i v) (i + 1) vs

/-- `BufWrite(i, v)`: `buffer[i] <- v`, and no other byte changes; an index outside 0..63 faults (R31). -/
def bufWrite (i : Nat) (v : Byte) (m : Memory) : Except Fault Memory :=
  if i < Config.blockBytes then .ok (Memory.set m i v) else .error (.bufferIndex i)

/-- `BufWrite` at consecutive indices, in rising order. -/
def bufWriteAll : Nat → List Byte → Memory → Except Fault Memory
  | _, [], m => .ok m
  | i, v :: vs, m => do bufWriteAll (i + 1) vs (← bufWrite i v m)

/-- `BufRead(i)` (R32); a byte that holds no value is a fault (R20). -/
def bufRead (i : Nat) (m : Memory) : Except Fault Byte :=
  if i < Config.blockBytes then held (.buffer i) (Memory.get? m i) else .error (.bufferIndex i)

/-- `n` bytes from index `i` on. -/
def bufReadFrom : Nat → Nat → Memory → Except Fault (List Byte)
  | _, 0, _ => .ok []
  | i, n + 1, m => do
    let b ← bufRead i m
    let bs ← bufReadFrom (i + 1) n m
    .ok (b :: bs)

/-- `block = buffer[0..64)`: the compression function reads the buffer as one block (R32). -/
def bufBlock (m : Memory) : Except Fault (List Byte) := bufReadFrom 0 Config.blockBytes m

/-- `n` zero bytes, the notation `0^n`. -/
def zeroBytes (n : Nat) : List Byte := List.replicate n 0x00#8

/-! ### Byte order: big-endian at each of the three places (R33 to R35) -/

/-- Four bytes as a word, the first the most significant (R33). -/
def wordOfBytes (b0 b1 b2 b3 : Byte) : Word :=
  (b0.zeroExtend 32 <<< 24) ||| (b1.zeroExtend 32 <<< 16) ||| (b2.zeroExtend 32 <<< 8) ||| b3.zeroExtend 32

/-- `BlockWords(block)`: word `j` from bytes `4j` to `4j+3` (R33). -/
def blockWords (block : List Byte) : List Word :=
  (List.range 16).map fun j =>
    wordOfBytes (block.getD (4 * j) 0) (block.getD (4 * j + 1) 0) (block.getD (4 * j + 2) 0) (block.getD (4 * j + 3) 0)

/-- `LenBytes(L)`: byte `k` is `L[63-8k : 56-8k]` (R34). -/
def lenBytes (L : Length) : List Byte := (List.range 8).map fun k => L.extractLsb' (56 - 8 * k) 8

/-- A word's bytes, the most significant first (R35). -/
def wordBytes (w : Word) : List Byte := (List.range 4).map fun j => w.extractLsb' (24 - 8 * j) 8

/-- The words in order 0..7. -/
def Words8.toList (x : Words8) : List Word := [x.w0, x.w1, x.w2, x.w3, x.w4, x.w5, x.w6, x.w7]

/-- Word by word sums, each mod 2^32 (R96). -/
def Words8.add (x y : Words8) : Words8 :=
  ⟨x.w0 + y.w0, x.w1 + y.w1, x.w2 + y.w2, x.w3 + y.w3, x.w4 + y.w4, x.w5 + y.w5, x.w6 + y.w6, x.w7 + y.w7⟩

/-- `DigestBytes(H)`: the 32 output bytes (R35). -/
def digestBytes (h : Words8) : List Byte := h.toList.flatMap wordBytes

/-! ### Taking an error -/

/-- An error is taken: its flag is set, no other state changes, and the engine goes on with the next command (R101 to R103).
There is no trap, no saved state, no handler and no return (R108). That the model goes on here, and leaves R106's "never
final" to Safety.lean, is notes/assumptions/1.md. -/
def takeError (e : CmdError) (s : State) : Answer := .next (s.setErrorFlag e)

end Sys2Proof.Machine
end

