-- ==== Sys2Proof/Machine/Schedule.lean ====
section
/-! DEFINITION. The message scheduler (42_message_schedule.md). -/

namespace Sys2Proof.Machine

/-- `ROTR(x, n)`, for `n` in 1..31 (R80). -/
def rotr (x : Word) (n : Nat) : Word := (x >>> n) ||| (x <<< (32 - n))

/-- `SHR(x, n)` (R81). -/
def shr (x : Word) (n : Nat) : Word := x >>> n

/-- `LowerSigma0` (R82). -/
def lowerSigma0 (x : Word) : Word := rotr x 7 ^^^ rotr x 18 ^^^ shr x 3

/-- `LowerSigma1` (R83). -/
def lowerSigma1 (x : Word) : Word := rotr x 17 ^^^ rotr x 19 ^^^ shr x 10

/-- `W[i]` from the words before it, `i` their number (R85). -/
def nextWord (W : List Word) : Word :=
  let i := W.length
  lowerSigma1 (W.getD (i - 2) 0) + W.getD (i - 7) 0 + lowerSigma0 (W.getD (i - 15) 0) + W.getD (i - 16) 0

/-- `n` more words of the schedule, in ascending order (R86). -/
def expand : Nat → List Word → List Word
  | 0, W => W
  | n + 1, W => expand n (W ++ [nextWord W])

/-- `Schedule(block)`: words 0 to 15 are the block (R84), words 16 to 63 follow R85. All 64 words are stored, one of the
structures R87 allows (notes/assumptions/9.md). -/
def schedule (block : List Byte) : List Word := expand (Config.scheduleWords - 16) (blockWords block)

end Sys2Proof.Machine
end

