-- ==== Sys2Proof/Machine/Compress.lean ====
section
/-! DEFINITION. The compression engine (43_compression.md). -/

namespace Sys2Proof.Machine

/-- Choose (R90). -/
def ch (x y z : Word) : Word := (x &&& y) ^^^ (~~~x &&& z)

/-- Majority (R91). -/
def maj (x y z : Word) : Word := (x &&& y) ^^^ (x &&& z) ^^^ (y &&& z)

/-- Upper sigma 0 (R92). -/
def upperSigma0 (x : Word) : Word := rotr x 2 ^^^ rotr x 13 ^^^ rotr x 22

/-- Upper sigma 1 (R93). -/
def upperSigma1 (x : Word) : Word := rotr x 6 ^^^ rotr x 11 ^^^ rotr x 25

/-- The working state before round 0: the schedule of the block and the registers loaded from `H` (R94, R97). -/
def Working.load (h : Words8) (block : List Byte) : Working :=
  { W := schedule block
    a := h.w0, b := h.w1, c := h.w2, d := h.w3, e := h.w4, f := h.w5, g := h.w6, h := h.w7
    t := 0 }

/-- `T1` of a round (R95). -/
def Working.t1 (x : Working) : Word :=
  x.h + upperSigma1 x.e + ch x.e x.f x.g + roundConstants.getD x.t 0 + x.W.getD x.t 0

/-- `T2` of a round (R95). -/
def Working.t2 (x : Working) : Word := upperSigma0 x.a + maj x.a x.b x.c

/-- Round `t`: all right-hand sides read the registers from before the round (R95). What `t` holds after round 63
is the model's choice (notes/assumptions/9.md): it counts on to 64, which nothing reads. -/
def Working.round (x : Working) : Working :=
  { W := x.W
    a := x.t1 + x.t2, b := x.a, c := x.b, d := x.c
    e := x.d + x.t1, f := x.e, g := x.f, h := x.g
    t := x.t + 1 }

/-- `n` rounds, in ascending order of `t` (R98). -/
def Working.run : Nat → Working → Working
  | 0, x => x
  | n + 1, x => Working.run n x.round

/-- The working registers `a`..`h`, in the places of `H[0..7]`. -/
def Working.regs (x : Working) : Words8 := ⟨x.a, x.b, x.c, x.d, x.e, x.f, x.g, x.h⟩

/-- `Compress(H, block)`: load, 64 rounds, and the final addition (R94 to R97). Total: no `H` and no block is an error. -/
def compress (h : Words8) (block : List Byte) : Words8 := h.add ((Working.load h block).run Config.rounds).regs

/-- `H <- Compress(H, block)` on the engine's state. The working state is left holding no value (R97). -/
def State.compressBlock (block : List Byte) (s : State) : Except Fault State := do
  let h ← held .digestState s.digestState
  .ok { s with digestState := some (compress h block), work := none }

/-- The same for blocks in list order (R63). -/
def State.compressBlocks : List (List Byte) → State → Except Fault State
  | [], s => .ok s
  | block :: blocks, s => do State.compressBlocks blocks (← s.compressBlock block)

end Sys2Proof.Machine
end

