-- ==== Sys2Proof/Machine/Padding.lean ====
section
/-! DEFINITION. The padding and length encoder (41_padding_length.md). `p` is `buffered_len` when FINAL starts. -/

namespace Sys2Proof.Machine

/-- The length field `L = (total_bits + 8 * zext_64(p)) mod 2^64` (R70, R79). -/
def lengthField (totalBits : Length) (p : Nat) : Length := totalBits + bufferedBits p

/-- Whether the length field fits after the marker (R72). -/
def oneBlock (p : Nat) : Bool := decide (p + 1 ≤ 56)

/-- The bytes FINAL writes from index `p` to index 63, in order: the marker 0x80 (R71), then zeros to index 55 and the length
field in 56..63 (one block, R73), or zeros to index 63 (two blocks, R74). -/
def padTail (p : Nat) (L : Length) : List Byte :=
  if oneBlock p then 0x80#8 :: (zeroBytes (55 - p) ++ lenBytes L) else 0x80#8 :: zeroBytes (63 - p)

/-- The second block of the two-block case (R75). -/
def lengthBlock (L : Length) : List Byte := zeroBytes 56 ++ lenBytes L

/-- The final blocks, in order, as FINAL builds them in the buffer (R71 to R75). R75 leaves open where the second block is
built; the model builds it in the buffer too (notes/assumptions/9.md). -/
def finalBlocks (p : Nat) (L : Length) (m : Memory) : Except Fault (List (List Byte)) := do
  let m1 ← bufWriteAll p (padTail p L) m
  let first ← bufBlock m1
  if oneBlock p then .ok [first]
  else
    let m2 ← bufWriteAll 0 (lengthBlock L) m1
    let second ← bufBlock m2
    .ok [first, second]

/-- `PadBlocks(p, L)`, the pure form of R71 to R75, from the meaningful bytes `buffer[0..p)` (R76). -/
def padBlocks (meaningful : List Byte) (L : Length) : List (List Byte) :=
  let p := meaningful.length
  if p ≤ 55 then [meaningful ++ [0x80#8] ++ zeroBytes (55 - p) ++ lenBytes L]
  else [meaningful ++ [0x80#8] ++ zeroBytes (63 - p), zeroBytes 56 ++ lenBytes L]

end Sys2Proof.Machine
end

