-- ==== Sys2Proof/Machine/Commands.lean ====
section
/-! DEFINITION. The meanings of INIT, UPDATE and FINAL (40_commands.md). -/

namespace Sys2Proof.Machine

/-- UPDATE and FINAL check the phase first: in UNINIT and DONE they raise SeqError, in ACTIVE they have their effect
(R101, R61, R63). -/
def whenActive (effect : State → Except Fault State) (s : State) : Answer :=
  match s.phase with
  | none => .fault (.absentField .phase)
  | some .uninit => takeError .seqError s
  | some .done => takeError .seqError s
  | some .active => answer (effect s)

/-- Flush: compress the full buffer, count its 512 bits, and start an empty block (R62). The buffer bytes stay (R11). -/
def State.flush (s : State) : Except Fault State := do
  let block ← bufBlock s.buffer
  let s ← s.compressBlock block
  let bits ← held .totalBits s.totalBits
  .ok { s with totalBits := some (bits + 512#64), bufferedLen := some 0 }

/-- UPDATE's effect in ACTIVE (R61). -/
def State.append (b : Byte) (s : State) : Except Fault State := do
  let n ← held .bufferedLen s.bufferedLen
  let m ← bufWrite n b s.buffer
  let s := { s with buffer := m, bufferedLen := some (n + 1) }
  if n + 1 = Config.blockBytes then s.flush else .ok s

/-- FINAL's effect in ACTIVE (R63, R64). -/
def State.finish (s : State) : Except Fault State := do
  let p ← held .bufferedLen s.bufferedLen
  let bits ← held .totalBits s.totalBits
  let blocks ← finalBlocks p (lengthField bits p) s.buffer
  let s ← s.compressBlocks blocks
  .ok { s with buffer := [], bufferedLen := none, totalBits := none, phase := some .done }

/-- INIT's effect, in every phase (R60): it reads nothing, and leaves the error flags alone. -/
def State.initialise (s : State) : Except Fault State := do
  let m ← bufWriteAll 0 (zeroBytes Config.blockBytes) s.buffer
  .ok { s with buffer := m, bufferedLen := some 0, totalBits := some 0#64, digestState := some iv, phase := some .active }

/-- INIT (R60). -/
def execInit (s : State) : Answer := answer s.initialise

/-- UPDATE b (R61). -/
def execUpdate (b : Byte) (s : State) : Answer := whenActive (State.append b) s

/-- FINAL (R63). -/
def execFinal (s : State) : Answer := whenActive State.finish s

end Sys2Proof.Machine
end

