-- ==== Sys2Proof/Machine/Ports.lean ====
section
/-! DEFINITION. The ports (R23 to R27): what an edge makes the engine do, and the outputs the host may sample. Reading an
output has no side effect (R38): each is a function of the state. -/

namespace Sys2Proof.Machine

/-- `rst` as the host drives it now: 1 only at an edge that says so. -/
def State.rst (s : State) : Bool :=
  match s.edges with
  | [] => false
  | e :: _ => e.rst

/-- `cmd_ready`: 0 while `rst` is 1 (R27), 1 at a command boundary after a reset (R24), and no value before the first reset
(R121, notes/assumptions/6.md). -/
def State.cmdReady (s : State) : Option Bool :=
  if s.rst then some false else s.phase.map fun _ => true

/-- Port `status`: the STATUS word (R25), defined only when `cmd_ready` is 1 (R125). -/
def State.statusPort (s : State) : Option (BitVec 16) :=
  if s.cmdReady = some true then s.statusWord else none

/-- Bytes as bits, the first byte in the most significant place. -/
def bitsOfBytes (bs : List Byte) : BitVec 256 := bs.foldl (fun acc b => (acc <<< 8) ||| b.zeroExtend 256) 0#256

/-- The digest the state holds: `DigestBytes(H)` in DONE, no value in any other phase (R26). -/
def State.digest (s : State) : Option (List Byte) :=
  if s.phase = some .done then s.digestState.map digestBytes else none

/-- Port `digest`: byte `k` on `digest[255-8k : 248-8k]` (R26), defined only when `cmd_ready` is 1 (R125). -/
def State.digestPort (s : State) : Option (BitVec 256) :=
  if s.cmdReady = some true then s.digest.map bitsOfBytes else none

/-- What an edge asks of the engine. -/
inductive EdgeEvent where
  /-- `rst` is 1 (R27). -/
  | reset
  /-- `rst` is 0 and the host presents a command word (R24). -/
  | command (w : CmdBits)
  /-- `rst` and `cmd_valid` are 0: nothing is accepted (R24). -/
  | idle
  /-- `rst` is 0 and `cmd_valid` or `cmd_word` is at an unknown logic value (R131, U17). -/
  | unknown
deriving DecidableEq, Repr

/-- The event of an edge (R23, R24, R27, R131). -/
def PortEdge.event (e : PortEdge) : EdgeEvent :=
  if e.rst then .reset
  else
    match e.cmdValid, e.cmdWord with
    | some true, some w => .command w
    | some false, some _ => .idle
    | _, _ => .unknown

/-- The edge at which the host presents the word `w`. -/
def PortEdge.present (w : CmdBits) : PortEdge := { rst := false, cmdValid := some true, cmdWord := some w }

end Sys2Proof.Machine
end

