-- ==== Sys2Proof/Machine/Step.lean ====
section
/-! DEFINITION. One step: one rising edge of `clk` at which `rst` is 1 or `cmd_ready` is 1 (R24, R27). An accepted command is
one atomic step (R24, R38). -/

namespace Sys2Proof.Machine

/-- An accepted word: decode first; an illegal word raises IllegalCommand and is not checked for phase (R104). -/
def accept (w : CmdBits) (s : State) : Answer :=
  match decode w with
  | .ok i => exec i s
  | .error _ => takeError .illegalCommand s

/-- A command edge: before the first reset, whether the word is accepted is not said (R121, notes/assumptions/6.md). -/
def acceptIfReset (w : CmdBits) (s : State) : Answer :=
  match s.phase with
  | none => .fault .commandBeforeReset
  | some _ => accept w s

/-- A reset: every state element takes its reset value (R27, R120); what the host drives next is not the engine's. -/
def State.afterReset (s : State) : State := { State.reset with edges := s.edges }

/-- What the engine does at an edge, that edge no longer to come. -/
def stepEvent (ev : EdgeEvent) (s : State) : Answer :=
  match ev with
  | .reset => .next s.afterReset
  | .command w => acceptIfReset w s
  | .idle => .next s
  | .unknown => .fault .unknownDrive

/-- One step. With no edge to come the host issues no further command (R130), and nothing changes
(notes/assumptions/4.md). -/
def step (s : State) : Host.Outcome State Fault Refusal :=
  match s.edges with
  | [] => .next s
  | e :: rest => stepEvent e.event { s with edges := rest }

/-- The state in which the next edge presents the row's word `w`. There is no program memory: the host presents each word
(R21, R24; notes/assumptions/3.md). -/
def State.withFetchWord (s : State) (nbits w : Nat) : State :=
  { s with edges := PortEdge.present (tableWord nbits w) :: s.edges }

end Sys2Proof.Machine
end

