-- ==== Sys2Proof/Machine/Assembler.lean ====
section
/-! DEFINITION. The assembler, its pseudo-commands, and the disassembler (R55, R56). Text is a list of characters, one line
at a time. What R55 leaves open (white space, blank lines, quotes around `;` and `,`, the digits' case) is fixed as
notes/assumptions/11.md says. -/

namespace Sys2Proof.Machine

/-- White space between the parts of a line. -/
def asmSpace (c : Char) : Bool := c = ' ' || c = '\t'

/-- Text without the white space at its two ends. -/
def asmTrim (cs : List Char) : List Char := (((cs.dropWhile asmSpace).reverse).dropWhile asmSpace).reverse

/-- The text cut at every `sep` that stands outside quotes: `'c'` is passed over whole, `"…"` up to its closing mark.
`acc` is the piece so far, backwards. -/
def asmSplit (sep : Char) : List Char → Bool → List Char → List (List Char)
  | [], _, acc => [acc.reverse]
  | c :: cs, true, acc => asmSplit sep cs (c != '"') (c :: acc)
  | '\'' :: c :: '\'' :: cs, false, acc => asmSplit sep cs false ('\'' :: c :: '\'' :: acc)
  | c :: cs, false, acc =>
    if c = sep then acc.reverse :: asmSplit sep cs false [] else asmSplit sep cs (c == '"') (c :: acc)

/-- A line without its comment: a `;` starts a comment that runs to the end of the line (R55). -/
def asmStripComment (cs : List Char) : List Char := (asmSplit ';' cs false []).headD []

/-- The value of a hexadecimal digit, of either case. -/
def asmHexDigit? (c : Char) : Option Nat :=
  if '0' ≤ c ∧ c ≤ '9' then some (c.toNat - 48)
  else if 'a' ≤ c ∧ c ≤ 'f' then some (c.toNat - 87)
  else if 'A' ≤ c ∧ c ≤ 'F' then some (c.toNat - 55)
  else none

/-- The value of a decimal digit. -/
def asmDigit? (c : Char) : Option Nat := if '0' ≤ c ∧ c ≤ '9' then some (c.toNat - 48) else none

/-- A decimal integer. -/
def asmDecimal? : List Char → Nat → Option Nat
  | [], n => some n
  | c :: cs, n => (asmDigit? c).bind fun d => asmDecimal? cs (10 * n + d)

/-- An operand: `'c'`, `0xNN`, or a decimal integer (R55). -/
def asmOperand? : List Char → Option AsmOperand
  | ['\'', c, '\''] => some (.chr c)
  | ['0', 'x', hi, lo] => do some (.hex (16 * (← asmHexDigit? hi) + (← asmHexDigit? lo)))
  | [] => none
  | cs => (asmDecimal? cs 0).map .dec

/-- `"text"`: the characters between two double quotes (R56). -/
def asmQuoted? : List Char → Option (List Char)
  | '"' :: cs =>
    match cs.reverse with
    | '"' :: text => if '"' ∈ text then none else some text.reverse
    | _ => none
  | _ => none

/-- Operands separated by commas; nothing is no operand (R56). -/
def asmOperands? (cs : List Char) : Option (List AsmOperand) :=
  if cs = [] then some [] else (asmSplit ',' cs false []).mapM fun o => asmOperand? (asmTrim o)

/-- A line of text as a line of the assembler; `none` is an assembly error. Mnemonics are upper case (R55). That an
empty line, or one of white space only, is no error and no command is the model's choice (notes/assumptions/11.md). -/
def asmParse? (cs : List Char) : Option AsmLine :=
  let line := asmTrim (asmStripComment cs)
  let word := line.takeWhile fun c => !asmSpace c
  let args := asmTrim (line.dropWhile fun c => !asmSpace c)
  if line = [] then some .blank
  else if word = "INIT".toList then if args = [] then some .init else none
  else if word = "UPDATE".toList then (asmOperand? args).map .update
  else if word = "FINAL".toList then if args = [] then some .final else none
  else if word = "UPDATE_BYTES".toList then (asmOperands? args).map .updateBytes
  else if word = "UPDATE_STR".toList then (asmQuoted? args).map .updateStr
  else if word = "HASH".toList then (asmQuoted? args).map .hash
  else none

/-- The byte of an operand in range. -/
def operandByte : AsmOperand → Byte
  | .hex n => BitVec.ofNat 8 n
  | .dec n => BitVec.ofNat 8 n
  | .chr c => BitVec.ofNat 8 c.toNat

/-- `UPDATE_STR "text"`: one UPDATE a character, first character first, no terminator (R56). -/
def textUpdates (text : List Char) : List Instr := text.map fun c => .update (BitVec.ofNat 8 c.toNat)

/-- The commands a well-formed line stands for (R55, R56). -/
def lineCommands : AsmLine → List Instr
  | .blank => []
  | .init => [.init]
  | .update o => [.update (operandByte o)]
  | .final => [.final]
  | .updateBytes os => os.map fun o => .update (operandByte o)
  | .updateStr text => textUpdates text
  | .hash text => .init :: (textUpdates text ++ [.final])

/-- The commands of a line, or an assembly error for an operand out of range (R55). -/
def expandLine? (l : AsmLine) : Option (List Instr) := if l.wf then some (lineCommands l) else none

/-- The command words of a line of text; `none` is an assembly error. -/
def assembleLine? (cs : List Char) : Option (List CmdBits) :=
  (asmParse? cs).bind fun l => (expandLine? l).map fun is => is.map encode

/-- The command words of a text, one line after another. -/
def assemble? : List (List Char) → Option (List CmdBits)
  | [] => some []
  | l :: ls => (assembleLine? l).bind fun ws => (assemble? ls).map fun more => ws ++ more

/-- A lower-case hexadecimal digit. -/
def hexDigit (n : Nat) : Char := if n < 10 then Char.ofNat (48 + n) else Char.ofNat (87 + n)

/-- The lower-case hexadecimal digits of the low `4 * k` bits of `n`, the most significant first. -/
def hexDigits (k n : Nat) : List Char := (List.range k).map fun j => hexDigit (n / 16 ^ (k - 1 - j) % 16)

/-- The disassembler: `UPDATE 0xNN` with two lower-case digits, an illegal word as `.word 0xNNNN` (R55). -/
def disassemble (w : CmdBits) : List Char :=
  match decode w with
  | .ok .init => "INIT".toList
  | .ok (.update b) => "UPDATE 0x".toList ++ hexDigits 2 b.toNat
  | .ok .final => "FINAL".toList
  | .error _ => ".word 0x".toList ++ hexDigits 4 w.toNat

end Sys2Proof.Machine
end

