-- ==== Sys2Proof/Machine/Checked.lean ====
section
/-! DEFINITION. The machine under R106 and D25: a step that turns either error into a fault, which records the rule. The
engine itself goes on after an error (R103, R105), and that is `step`; why there are both is notes/assumptions/1.md. -/

namespace Sys2Proof.Machine

/-- The rule an error is raised by (R106: "The fault records the rule that raised it"). -/
def CmdError.rule : CmdError → Nat
  | .seqError => 101
  | .illegalCommand => 102

/-- The phase check of UPDATE and FINAL (R101). Before the first reset there is no phase and R121 gives a command no
behaviour: no error is raised then, the model's choice (notes/assumptions/6.md). -/
def phaseError (s : State) : Option CmdError :=
  match s.phase with
  | none => none
  | some .uninit => some .seqError
  | some .active => none
  | some .done => some .seqError

/-- The error a command raises: none for INIT; SeqError for UPDATE and FINAL in UNINIT and DONE (R101). -/
def commandError (i : Instr) (s : State) : Option CmdError :=
  match i with
  | .init => none
  | .update _ => phaseError s
  | .final => phaseError s

/-- The error an accepted word raises, decoded first (R104). -/
def wordError (w : CmdBits) (s : State) : Option CmdError :=
  match decode w with
  | .ok i => commandError i s
  | .error _ => some .illegalCommand

/-- The error an event raises. Before the first reset a command raises none, since R121 does not say that it is accepted: the
model's choice (notes/assumptions/6.md). -/
def eventError (ev : EdgeEvent) (s : State) : Option CmdError :=
  match ev with
  | .command w => s.phase.bind fun _ => wordError w s
  | .reset => none
  | .idle => none
  | .unknown => none

/-- The error the next edge raises, if any. -/
def State.raisedError (s : State) : Option CmdError := s.edges.head?.bind fun e => eventError e.event s

/-- One step under R106: "A model turns either error into a fault". Where no error is raised it is the engine's step. -/
def checkedStep (s : State) : Answer :=
  match s.raisedError with
  | some e => .fault (.raised e)
  | none => step s

/-- The machine whose step is `checkedStep`. -/
def checkedCore : Host.Core :=
  { State := State, Fault := Fault, Refusal := Refusal, step := checkedStep, reset := State.reset }

end Sys2Proof.Machine
end

