-- ==== Sys2Proof/Safety.lean ====
section
/-! DEFINITION. What counts as a safe run, and the terms claims are stated in: runs and their observation (R106, R130), the
digest of a message (R65, R78), the invariant of the engine's state, and equality up to stale buffer bytes (R44). -/

namespace Sys2Proof.Machine

/-! ### Runs -/

/-- `n` steps, stopping at the first fault or refusal. -/
def runSteps : Nat → State → Answer
  | 0, s => .next s
  | n + 1, s =>
    match step s with
    | .next t => runSteps n t
    | .fault f => .fault f
    | .refused r => .refused r

/-- Commands one after another (R39), stopping at the first fault or refusal. -/
def runCommands : List Instr → State → Answer
  | [], s => .next s
  | i :: is, s =>
    match exec i s with
    | .next t => runCommands is t
    | .fault f => .fault f
    | .refused r => .refused r

/-- How a run under R106's discipline goes. -/
inductive Verdict where
  /-- No error was raised so far. -/
  | reached (s : State)
  /-- A command raised an error: the run is faulted and never final (R106). -/
  | faulted (e : CmdError)
  /-- The model stopped. -/
  | stopped
deriving DecidableEq, Repr

/-- What R106 makes of a fault: the run is faulted by an error, or the model stopped. -/
def Fault.verdict : Fault → Verdict
  | .raised e => .faulted e
  | .absentField _ => .stopped
  | .bufferIndex _ => .stopped
  | .commandBeforeReset => .stopped
  | .unknownDrive => .stopped

/-- `n` steps under R106's discipline: the first error raised ends the run as faulted. -/
def checkedRun : Nat → State → Verdict
  | 0, s => .reached s
  | n + 1, s =>
    match checkedStep s with
    | .next t => checkedRun n t
    | .fault f => f.verdict
    | .refused _ => .stopped

/-- STATUS[3:2] = 0b00: R106's equivalent form of "no error raised", for a run that began with it. -/
def State.errorFree (s : State) : Bool := s.statusWord.any fun st => st.extractLsb' 2 2 == 0

/-- The end of a run (R130): the host issues no further command, `cmd_ready` is 1, and no error was raised (R106: a run that
raised one "is never final"). -/
def State.isFinal (s : State) : Bool := decide (s.edges = [] ∧ s.cmdReady = some true ∧ s.errorFree = true)

/-- The observation at the end of a run: the pair (STATUS, digest port), the digest absent unless `phase` is DONE (R130). -/
def State.observe (s : State) : Option (BitVec 16) × Option (BitVec 256) := (s.statusPort, s.digestPort)

/-- How many UPDATEs of a command sequence flush: those at which `total_bits` changes, which only a flush inside UPDATE makes it
do (R13). The count stops where the run does. -/
def flushCount : List Instr → State → Nat
  | [], _ => 0
  | i :: is, s =>
    match exec i s with
    | .next t => (if i ≠ .init ∧ i ≠ .final ∧ t.totalBits ≠ s.totalBits then 1 else 0) + flushCount is t
    | .fault _ => 0
    | .refused _ => 0

/-- The edges at which a host presents these commands, one after another. -/
def commandEdges (is : List Instr) : List PortEdge := is.map fun i => PortEdge.present (encode i)

/-! ### The digest of a message -/

/-- The commands of one hash: INIT, an UPDATE a byte, FINAL (R65). -/
def hashCommands (M : List Byte) : List Instr := .init :: (M.map .update ++ [.final])

/-- The whole 64-byte blocks of a byte sequence, in order. -/
def blocksOf (bs : List Byte) : List (List Byte) :=
  (List.range (bs.length / 64)).map fun j => (bs.drop (64 * j)).take 64

/-- The bytes after the last whole block. -/
def lastPart (bs : List Byte) : List Byte := bs.drop (64 * (bs.length / 64))

/-- The padded message `M ++ [0x80] ++ 0^k ++ LenBytes((8n) mod 2^64)`, `k = (55 - n) mod 64` (R78). -/
def paddedMessage (M : List Byte) : List Byte :=
  M ++ [0x80#8] ++ zeroBytes ((55 - (M.length : Int)) % 64).toNat ++ lenBytes (BitVec.ofNat 64 (8 * M.length))

/-- `SHA256(M)` as R65 defines it: a fold of Compress over the blocks of the padded message, from `IV`. -/
def sha256 (M : List Byte) : List Byte := digestBytes ((blocksOf (paddedMessage M)).foldl compress iv)

/-! ### The invariant -/

/-- The message part of the state holds no value (R28, R64). -/
def State.holdsNoMessage (s : State) : Prop :=
  s.buffer = [] ∧ s.bufferedLen = none ∧ s.totalBits = none

/-- The message part of the state in ACTIVE: every buffer byte holds a value (INIT wrote it, R11), `buffered_len` is below
64 (R12), and `total_bits` counts whole blocks (R13). -/
def State.holdsMessage (s : State) : Prop :=
  (∀ i < 64, (Memory.get? s.buffer i).isSome) ∧
  (∃ n, s.bufferedLen = some n ∧ n < 64) ∧
  (∃ bits, s.totalBits = some bits ∧ bits.toNat % 512 = 0)

/-- What each phase holds (R15, R28, R60, R64, R121). -/
def State.phaseInv (s : State) : Prop :=
  match s.phase with
  | none => s.holdsNoMessage ∧ s.digestState = none ∧ s.errSeq = none ∧ s.errIll = none
  | some .uninit => s.holdsNoMessage ∧ s.digestState = none ∧ s.errSeq.isSome ∧ s.errIll.isSome
  | some .active => s.holdsMessage ∧ s.digestState.isSome ∧ s.errSeq.isSome ∧ s.errIll.isSome
  | some .done => s.holdsNoMessage ∧ s.digestState.isSome ∧ s.errSeq.isSome ∧ s.errIll.isSome

/-- The invariant between commands: the buffer is in its canonical form, the working state holds no value (R22), and the
state holds what its phase says. -/
def State.Inv (s : State) : Prop := Memory.wf s.buffer ∧ s.work = none ∧ s.phaseInv

/-! ### Stale buffer bytes -/

/-- Two states that differ at most in the buffer bytes at and above `buffered_len` in ACTIVE (R44). -/
def sameUpToStale (s t : State) : Prop :=
  t = { s with buffer := t.buffer } ∧
  ((s.phase ≠ some .active ∧ t.buffer = s.buffer) ∨
   (s.phase = some .active ∧
     ∃ n, s.bufferedLen = some n ∧ ∀ i < n, Memory.get? s.buffer i = Memory.get? t.buffer i))

/-- Two answers of the same kind: next states equal up to stale bytes, or the same stop. -/
def sameAnswer : Answer → Answer → Prop
  | .next s, .next t => sameUpToStale s t
  | .fault f, .fault g => f = g
  | .refused q, .refused r => q = r
  | _, _ => False

end Sys2Proof.Machine
end

