-- ==== Sys2Proof/Certificates/Slice0/Obligations.lean ====
section
/-! DEFINITION. The statements about the model, from the spec's numbered rules. Each docstring names its rule. A statement
that rests on a choice of the model's own says so. -/

open Sys2Proof Sys2Proof.Machine

/-! ### Encoding (30_encoding.md) -/

/-- The decoder vectors of 95_test_vectors.md section 6: words written out from R45 to R51. -/
def Obligations.DecoderVectors : Prop :=
  decode 0x1000#16 = .ok .init ∧
  decode 0x2000#16 = .ok (.update 0x00) ∧
  decode 0x2061#16 = .ok (.update 0x61) ∧
  decode 0x2080#16 = .ok (.update 0x80) ∧
  decode 0x20FF#16 = .ok (.update 0xFF) ∧
  decode 0x3000#16 = .ok .final ∧
  ([0x1001#16, 0x1100#16, 0x2100#16, 0x2F61#16, 0x3080#16, 0x0000#16, 0x4000#16, 0xF0FF#16, 0xFFFF#16].all fun w =>
    (decode w).toOption.isNone) = true

/-- R54: the decoder, written from the word's fields, is `Decode` as R54 writes it, on every word. -/
def Obligations.DecodeIsTheRulesChain : Prop :=
  ∀ w : CmdBits, (decode w).toOption =
    if w = 0x1000#16 then some .init
    else if w.extractLsb' 8 8 = 0x20#8 then some (.update (w.extractLsb' 0 8))
    else if w = 0x3000#16 then some .final
    else none

/-- Decode and encode agree in both directions: no bit of an encoding is dropped, and each legal word has one meaning. -/
def Obligations.DecodeEncodeAgree : Prop :=
  (∀ i : Instr, decode (encode i) = .ok i) ∧ ∀ (w : CmdBits) (i : Instr), decode w = .ok i → encode i = w

/-- R51: which words are illegal, how many, and that an accepted one only sets `err_ill`. -/
def Obligations.IllegalWordsAreThoseOfTheRule : Prop :=
  (∀ w : CmdBits, (∃ r, decode w = .error r) ↔
    (w.extractLsb' 12 4 = 0 ∨ 4 ≤ (w.extractLsb' 12 4).toNat) ∨
    w.extractLsb' 8 4 ≠ 0 ∨
    ((w.extractLsb' 12 4 = 1 ∨ w.extractLsb' 12 4 = 3) ∧ w.extractLsb' 0 8 ≠ 0)) ∧
  ((List.range 65536).countP fun n => (decode (BitVec.ofNat 16 n)).toOption.isNone) = 65278 ∧
  ∀ (s : State) (p : Phase) (w : CmdBits) (rest : List PortEdge) (r : IllegalReason),
    s.phase = some p → s.edges = PortEdge.present w :: rest → decode w = .error r →
      step s = .next { s with edges := rest, errIll := some true }

/-- R46, R45: the legal words of R46's table, told by their fields, are the decoder's, and the fields make up the word. -/
def Obligations.LegalFieldsDecode : Prop :=
  ∀ w : CmdBits, (CmdFields.ofWord w).legal = (decode w).toOption.isSome ∧ (CmdFields.ofWord w).toWord = w

/-! ### The step and the ports (10_state.md, 70_reset_and_hazards.md) -/

/-- A step runs the decoded command: when the next edge presents a word that decodes to `i` (after the first reset), the step
is `exec i` with that edge no longer to come; and with a word placed by `withFetchWord` it is `exec i` on the state itself. -/
def Obligations.StepRunsTheDecodedCommand : Prop :=
  (∀ (s : State) (p : Phase) (e : PortEdge) (rest : List PortEdge) (w : CmdBits) (i : Instr),
    s.phase = some p → s.edges = e :: rest → e.rst = false → e.cmdValid = some true → e.cmdWord = some w →
    decode w = .ok i → step s = exec i { s with edges := rest }) ∧
  ∀ (s : State) (p : Phase) (nbits w : Nat) (i : Instr),
    s.phase = some p → decodeTableWord nbits w = some i → step (s.withFetchWord nbits w) = exec i s

/-- R120: at an edge with `rst` = 1 every state element takes its reset value, whatever the state before was (so whether or
not a command in progress had completed), and reset does not perform INIT. -/
def Obligations.ResetEdgeGivesTheResetState : Prop :=
  ∀ (s : State) (e : PortEdge) (rest : List PortEdge), s.edges = e :: rest → e.rst = true →
    ∃ t, step s = .next t ∧ (∀ u : State, u.edges = s.edges → step u = .next t) ∧
      t.phase = some .uninit ∧ t.errSeq = some false ∧ t.errIll = some false ∧
      (∀ i < 64, bufRead i t.buffer = .error (.absentField (.buffer i))) ∧
      t.bufferedLen = none ∧ t.totalBits = none ∧ t.digestState = none ∧ t.work = none ∧
      t.statusWord = some 0x0000#16 ∧ t.digest = none ∧ t.edges = rest

/-- An edge with `cmd_valid` = 0, and a host with no further edge, change nothing (R24, R130). The model's choice for them is
notes/assumptions/4.md. -/
def Obligations.IdleEdgesChangeNothing : Prop :=
  (∀ s : State, s.edges = [] → step s = .next s) ∧
  ∀ (s : State) (e : PortEdge) (rest : List PortEdge) (w : CmdBits),
    s.edges = e :: rest → e.rst = false → e.cmdValid = some false → e.cmdWord = some w →
      step s = .next { s with edges := rest }

/-- Before the first reset (R121), whatever edges are to come: `status` and `digest` hold no value, nor does `cmd_ready` while
`rst` is 0; a command edge stops the model (its choice, notes/assumptions/6.md) and raises no error; an idle edge only goes
by (notes/assumptions/4.md); and an edge with `rst` = 1 gives the state after reset. -/
def Obligations.PowerUpNeedsReset : Prop :=
  (∀ (w : CmdBits) (rest : List PortEdge),
    step { State.powerUp with edges := PortEdge.present w :: rest } = .fault .commandBeforeReset ∧
    State.raisedError { State.powerUp with edges := PortEdge.present w :: rest } = none) ∧
  (∀ edges : List PortEdge,
    State.observe { State.powerUp with edges := edges } = (none, none) ∧
    (State.rst { State.powerUp with edges := edges } = false →
      State.cmdReady { State.powerUp with edges := edges } = none)) ∧
  (∀ (e : PortEdge) (rest : List PortEdge), e.event = .idle →
    step { State.powerUp with edges := e :: rest } = .next { State.powerUp with edges := rest }) ∧
  ∀ (e : PortEdge) (rest : List PortEdge), e.rst = true →
    step { State.powerUp with edges := e :: rest } = .next { State.reset with edges := rest }

/-- A host that drives an unknown logic value on the command port: the model has no move (R131, U17;
notes/assumptions/7.md). -/
def Obligations.UnknownDriveStops : Prop :=
  ∀ (s : State) (e : PortEdge) (rest : List PortEdge), s.edges = e :: rest → e.rst = false →
    (e.cmdValid = none ∨ e.cmdWord = none) → step s = .fault .unknownDrive

/-- R25's layout: STATUS[1:0] is the phase's code, [2] ERR_SEQ, [3] ERR_ILL, and [15:4] read 0; and three status values:
0x0001 and 0x000A of 95_test_vectors.md section 7, 0x000D of its section 8 (P6). -/
def Obligations.StatusWordLayout : Prop :=
  (∀ (s : State) (p : Phase) (q i : Bool), s.phase = some p → s.errSeq = some q → s.errIll = some i →
    ∃ st, s.statusWord = some st ∧ st.extractLsb' 0 2 = p.code ∧ st.getLsbD 2 = q ∧ st.getLsbD 3 = i ∧
      st.extractLsb' 4 12 = 0) ∧
  statusBits .active false false = 0x0001#16 ∧ statusBits .active true true = 0x000D#16 ∧
  statusBits .done false true = 0x000A#16

/-- R125: the outputs hold the values of R25 and R26 when `rst` = 0 and `cmd_ready` = 1, and no value whenever `cmd_ready`
is not 1 (it is 0, or holds no value before the first reset). -/
def Obligations.OutputsOnlyWhenReady : Prop :=
  (∀ s : State, s.rst = false → s.cmdReady = some true →
    s.statusPort = s.statusWord ∧ s.digestPort = s.digest.map bitsOfBytes) ∧
  (∀ s : State, s.cmdReady ≠ some true → s.statusPort = none ∧ s.digestPort = none) ∧
  ∀ s : State, s.rst = true → s.cmdReady = some false

/-- R26: in DONE, with `cmd_ready` = 1, byte `k` of the digest is on `digest[255-8k : 248-8k]` and `H[i]` on
`digest[255-32i : 224-32i]`; in any other phase the port holds no value. -/
def Obligations.DigestPortLayout : Prop :=
  (∀ (s : State) (h : Words8), s.phase = some .done → s.cmdReady = some true → s.digestState = some h →
    ∃ d, s.digestPort = some d ∧
      (∀ k < 32, d.extractLsb' (248 - 8 * k) 8 = (digestBytes h).getD k 0) ∧
      ∀ i < 8, d.extractLsb' (224 - 32 * i) 32 = h.toList.getD i 0) ∧
  ∀ s : State, s.phase ≠ some .done → s.digestPort = none

/-! ### The commands (40_commands.md) -/

/-- The final block of the message "abc" (R73; 95_test_vectors.md section 3). -/
def abcBlock : List Byte := [0x61#8, 0x62#8, 0x63#8, 0x80#8] ++ zeroBytes 52 ++ lenBytes 24#64

/-- R60: INIT, in every phase and every state, completes with the fresh state: every buffer byte 0x00, both counts 0, `H` =
`IV`, phase ACTIVE, and nothing else changed (the working state too: notes/assumptions/10.md); INIT twice is INIT once, which
R60 itself marks as derived; and its example's STATUS. -/
def Obligations.InitLeavesAFreshState : Prop :=
  ∀ s : State, ∃ m,
    exec .init s = .next { s with
      buffer := m, bufferedLen := some 0, totalBits := some 0#64, digestState := some iv, phase := some .active } ∧
    (∀ i < 64, bufRead i m = .ok 0x00) ∧
    (Memory.wf s.buffer → m = (List.range 64).map fun i => (i, 0x00#8)) ∧
    (Memory.wf s.buffer → ∀ t, exec .init s = .next t → exec .init t = .next t) ∧
    (s.errSeq = some false → s.errIll = some false → ∀ t, exec .init s = .next t → t.statusWord = some 0x0001#16)

/-- R61, R62: UPDATE. In UNINIT and DONE it raises SeqError. In ACTIVE it stores its byte at `buffered_len` and counts it;
when the byte is the 64th, it compresses the full buffer, adds 512 to `total_bits` mod 2^64, and starts an empty block,
the buffer bytes staying as they are. Nothing else changes. With R62's example of a flush, 64 bytes of 0x61. -/
def Obligations.UpdateAppendsOrFlushes : Prop :=
  (∀ (s : State) (b : Byte), s.phase = some .uninit ∨ s.phase = some .done →
    exec (.update b) s = .next { s with errSeq := some true }) ∧
  (∀ (s : State) (b : Byte) (n : Nat), s.phase = some .active → s.bufferedLen = some n → n < 63 →
    ∃ m, exec (.update b) s = .next { s with buffer := m, bufferedLen := some (n + 1) } ∧
      bufRead n m = .ok b ∧ ∀ a, a ≠ n → bufRead a m = bufRead a s.buffer) ∧
  (∀ (s : State) (b : Byte) (pre : List Byte) (h : Words8) (bits : Length),
    s.phase = some .active → s.bufferedLen = some 63 → pre.length = 63 →
    (∀ i < 63, bufRead i s.buffer = .ok (pre.getD i 0)) → s.digestState = some h → s.totalBits = some bits →
    ∃ m, exec (.update b) s = .next { s with
        buffer := m, bufferedLen := some 0, totalBits := some (BitVec.ofNat 64 (bits.toNat + 512))
        digestState := some (compress h (pre ++ [b])), work := none } ∧
      bufRead 63 m = .ok b ∧ ∀ a, a ≠ 63 → bufRead a m = bufRead a s.buffer) ∧
  compress iv (List.replicate 64 0x61#8) =
    ⟨0xdf5bb81c#32, 0xe81e0626#32, 0xfb45a894#32, 0x4fd40f31#32, 0xb25e6816#32, 0xd6d499c1#32, 0xab904929#32,
     0x00635e66#32⟩

/-- R63: FINAL. In UNINIT and DONE it raises SeqError. In ACTIVE it compresses the blocks of `PadBlocks` (R76) in order,
with `L = total_bits + 8 * buffered_len` mod 2^64; the buffer and both counts then hold no value, the phase is DONE, and the
digest is `DigestBytes(H)`. Nothing else changes. With R63's example, "abc". -/
def Obligations.FinalPadsAndCompresses : Prop :=
  (∀ s : State, s.phase = some .uninit ∨ s.phase = some .done → exec .final s = .next { s with errSeq := some true }) ∧
  (∀ (s : State) (M : List Byte) (h : Words8) (bits : Length),
    s.phase = some .active → s.bufferedLen = some M.length → M.length < 64 →
    (∀ i < M.length, bufRead i s.buffer = .ok (M.getD i 0)) → s.digestState = some h → s.totalBits = some bits →
    ∃ t, exec .final s = .next t ∧
      t = { s with
        buffer := [], bufferedLen := none, totalBits := none, phase := some .done, work := none
        digestState := some ((padBlocks M (BitVec.ofNat 64 (bits.toNat + 8 * M.length))).foldl compress h) } ∧
      (∀ i < 64, bufRead i t.buffer = .error (.absentField (.buffer i))) ∧
      t.digest = t.digestState.map digestBytes ∧
      (s.errSeq = some false → s.errIll = some false → t.statusWord = some 0x0002#16)) ∧
  padBlocks [0x61#8, 0x62#8, 0x63#8] 24 = [abcBlock] ∧
  digestBytes (compress iv abcBlock) = digestBytes
    ⟨0xba7816bf#32, 0x8f01cfea#32, 0x414140de#32, 0x5dae2223#32, 0xb00361a3#32, 0x96177a9c#32, 0xb410ff61#32,
     0xf20015ad#32⟩

/-- R31: `BufWrite(i, v)` with `i` in 0..63 sets `buffer[i]` and changes no other byte; outside 0..63 it faults; and UPDATE
calls it at index `buffered_len`, faulting there too when that is above 63. -/
def Obligations.BufWriteTouchesOneByte : Prop :=
  (∀ (i : Nat) (v : Byte) (m : Memory), i ≤ 63 →
    ∃ m', bufWrite i v m = .ok m' ∧ bufRead i m' = .ok v ∧ ∀ j, j ≠ i → bufRead j m' = bufRead j m) ∧
  (∀ (i : Nat) (v : Byte) (m : Memory), 63 < i → bufWrite i v m = .error (.bufferIndex i)) ∧
  ∀ (s : State) (b : Byte) (n : Nat), s.phase = some .active → s.bufferedLen = some n → 63 < n →
    exec (.update b) s = .fault (.bufferIndex n)

/-- R64: after a FINAL that completes, and that only INIT or reset leaves DONE. -/
def Obligations.OnlyInitOrResetLeavesDone : Prop :=
  (∀ s t : State, s.phase = some .active → exec .final s = .next t →
    t.phase = some .done ∧ (∃ h, t.digestState = some h ∧ t.digest = some (digestBytes h)) ∧
    t.buffer = [] ∧ t.bufferedLen = none ∧ t.totalBits = none) ∧
  (∀ (s : State) (i : Instr), s.phase = some .done → i ≠ .init → exec i s = .next { s with errSeq := some true }) ∧
  ∀ s t : State, s.phase = some .done → step s = .next t → t.phase ≠ some .done →
    ∃ e rest, s.edges = e :: rest ∧ (e.rst = true ∨ ∃ w, e.event = .command w ∧ decode w = .ok .init)

/-- R15's transitions: reset sets UNINIT, INIT sets ACTIVE from any phase, a FINAL accepted in ACTIVE sets DONE, no other
command and no error changes the phase; the codes of the phases, 0b11 never; and that STATUS[1:0] shows the code. -/
def Obligations.PhaseTransitions : Prop :=
  (∀ (s t : State) (e : PortEdge) (rest : List PortEdge), s.edges = e :: rest → step s = .next t →
    (e.event = .reset → t.phase = some .uninit) ∧
    (e.event = .idle → t.phase = s.phase) ∧
    ∀ w, e.event = .command w →
      (decode w = .ok .init → t.phase = some .active) ∧
      (decode w = .ok .final → s.phase = some .active → t.phase = some .done) ∧
      (decode w ≠ .ok .init → ¬(decode w = .ok .final ∧ s.phase = some .active) → t.phase = s.phase)) ∧
  Phase.uninit.code = 0b00#2 ∧ Phase.active.code = 0b01#2 ∧ Phase.done.code = 0b10#2 ∧ (∀ p : Phase, p.code ≠ 0b11#2) ∧
  ∀ (s : State) (p : Phase) (st : BitVec 16), s.phase = some p → s.statusWord = some st → st.extractLsb' 0 2 = p.code

/-- R13 and R14, who writes `total_bits` and `H`: INIT sets them to 0 and `IV`; an UPDATE that fills the buffer adds 512 and
compresses; FINAL's compressions do not add to `total_bits`, which then holds no value (R77); every other command leaves both
alone. Of a step: a reset takes both values away (R28), a legal word is its command, and an illegal word, an edge with no
command, and no edge leave both alone. -/
def Obligations.WhoWritesTotalBitsAndDigest : Prop :=
  (∀ s t : State, exec .init s = .next t → t.totalBits = some 0#64 ∧ t.digestState = some iv) ∧
  (∀ (s t : State) (b : Byte), exec (.update b) s = .next t →
    (s.phase = some .active ∧ s.bufferedLen = some 63 ∧ t.totalBits = s.totalBits.map (· + 512#64) ∧
      ∃ block, block.length = 64 ∧ t.digestState = s.digestState.map fun h => compress h block) ∨
    (¬(s.phase = some .active ∧ s.bufferedLen = some 63) ∧ t.totalBits = s.totalBits ∧
      t.digestState = s.digestState)) ∧
  (∀ s t : State, exec .final s = .next t →
    (s.phase = some .active ∧ t.totalBits = none ∧
      ∃ blocks : List (List Byte), (blocks.length = 1 ∨ blocks.length = 2) ∧
        (∀ block ∈ blocks, block.length = 64) ∧ t.digestState = s.digestState.map fun h => blocks.foldl compress h) ∨
    (s.phase ≠ some .active ∧ t.totalBits = s.totalBits ∧ t.digestState = s.digestState)) ∧
  (∀ (s t : State) (e : PortEdge) (rest : List PortEdge), s.edges = e :: rest → step s = .next t →
    (e.event = .reset → t.totalBits = none ∧ t.digestState = none) ∧
    (e.event = .idle → t.totalBits = s.totalBits ∧ t.digestState = s.digestState) ∧
    ∀ w, e.event = .command w →
      (∀ i, decode w = .ok i → exec i { s with edges := rest } = .next t) ∧
      ∀ r, decode w = .error r → t.totalBits = s.totalBits ∧ t.digestState = s.digestState) ∧
  ∀ s t : State, s.edges = [] → step s = .next t → t.totalBits = s.totalBits ∧ t.digestState = s.digestState

/-! ### Errors (60_exceptions.md) -/

/-- R101: an accepted UPDATE or FINAL in UNINIT or DONE raises SeqError, which sets `err_seq` and nothing else; INIT never
raises it. -/
def Obligations.SequencingErrors : Prop :=
  (∀ (s : State) (i : Instr), i ≠ .init → s.phase = some .uninit ∨ s.phase = some .done →
    exec i s = .next { s with errSeq := some true }) ∧
  ∀ s : State, ∃ t, exec .init s = .next t ∧ t.errSeq = s.errSeq ∧ t.errIll = s.errIll

/-- R103: a command that raises an error changes no state but its error flag; the digest stays readable; the engine is
ready again and goes on with the next edge. -/
def Obligations.ErrorsArePrecise : Prop :=
  ∀ (s : State) (p : Phase) (e : PortEdge) (rest : List PortEdge) (err : CmdError),
    s.phase = some p → s.edges = e :: rest → s.raisedError = some err →
    ∃ t, step s = .next t ∧ t.digest = s.digest ∧
      (err = .seqError → t = { s with edges := rest, errSeq := some true }) ∧
      (err = .illegalCommand → t = { s with edges := rest, errIll := some true }) ∧
      (t.rst = false → t.cmdReady = some true)

/-- R104: the decoder runs first, so an illegal word raises IllegalCommand only, in every phase; a legal word may raise
SeqError; one command raises at most one error; and 0x2100 in DONE sets ERR_ILL and leaves ERR_SEQ. -/
def Obligations.DecodeComesBeforePhase : Prop :=
  (∀ (s : State) (p : Phase) (w : CmdBits) (rest : List PortEdge) (r : IllegalReason),
    s.phase = some p → s.edges = PortEdge.present w :: rest → decode w = .error r →
    ∃ t, step s = .next t ∧ t.errIll = some true ∧ t.errSeq = s.errSeq) ∧
  (∀ (s t : State) (w : CmdBits) (rest : List PortEdge) (i : Instr),
    s.edges = PortEdge.present w :: rest → decode w = .ok i → step s = .next t →
    t.errIll = s.errIll ∧
      ((i ≠ .init ∧ s.phase ≠ some .active ∧ t.errSeq = some true) ∨
       ((i = .init ∨ s.phase = some .active) ∧ t.errSeq = s.errSeq))) ∧
  ∀ (s : State) (rest : List PortEdge), s.phase = some .done → s.edges = PortEdge.present 0x2100#16 :: rest →
    step s = .next { s with edges := rest, errIll := some true }

/-- R105: a set error flag stays set until a reset; commands that raise no error leave the flags alone and execute the same
whatever the flags hold. -/
def Obligations.ErrorFlagsAreSticky : Prop :=
  (∀ s t : State, step s = .next t → s.rst = false →
    (s.errSeq = some true → t.errSeq = some true) ∧ (s.errIll = some true → t.errIll = some true) ∧
    (s.raisedError = none → t.errSeq = s.errSeq ∧ t.errIll = s.errIll)) ∧
  ∀ (s t : State) (i : Instr) (q r : Option Bool), commandError i s = none → exec i s = .next t →
    exec i { s with errSeq := q, errIll := r } = .next { t with errSeq := q, errIll := r }

/-- R106: a step of the checked machine is a fault exactly when its edge raises an error: IllegalCommand for a word that is
no command, SeqError for UPDATE and FINAL outside ACTIVE, with R102's or R101's number; elsewhere it is the engine's step. A
run that raised an error is never final: it stays faulted however many steps follow. That the checked machine stands beside
`step`, which goes on, is the model's choice (notes/assumptions/1.md). -/
def Obligations.CheckedStepFaultsAtEachError : Prop :=
  (∀ (s : State) (p : Phase) (w : CmdBits) (rest : List PortEdge),
    s.phase = some p → s.edges = PortEdge.present w :: rest →
    (∀ r, decode w = .error r → checkedStep s = .fault (.raised .illegalCommand)) ∧
    (∀ i, decode w = .ok i → i ≠ .init → p ≠ .active → checkedStep s = .fault (.raised .seqError)) ∧
    ∀ i, decode w = .ok i → i = .init ∨ p = .active → checkedStep s = exec i { s with edges := rest }) ∧
  (∀ s : State, s.raisedError = none → checkedStep s = step s) ∧
  CmdError.seqError.rule = 101 ∧ CmdError.illegalCommand.rule = 102 ∧
  (∀ (n : Nat) (s : State) (err : CmdError), checkedRun n s = .faulted err → ∀ m, n ≤ m → checkedRun m s = .faulted err) ∧
  ∀ s t : State, step s = .next t → s.raisedError.isSome = true → t.isFinal = false

/-- R106: its two forms agree. Under the model, which takes an error and goes on (notes/assumptions/1.md), a run without a
reset from an error-free state is one R106 faults exactly when STATUS[3:2] is not 0b00 at its end, and the rule recorded is
R101's or R102's. -/
def Obligations.FaultedRunsEndWithAnErrorFlag : Prop :=
  ∀ (n : Nat) (s t : State), s.errorFree = true → (∀ e ∈ s.edges, e.rst = false) → runSteps n s = .next t →
    (t.errorFree = true ↔ checkedRun n s = .reached t) ∧
    (t.errorFree = false ↔ ∃ err, checkedRun n s = .faulted err ∧ (err.rule = 101 ∨ err.rule = 102))

/-- R20: a read of a field that holds no value is a fault of the model, never a number. UPDATE and FINAL read `phase` first,
then `buffered_len`; FINAL reads `total_bits` too; a compression reads `H`. -/
def Obligations.AbsentFieldsFault : Prop :=
  (∀ (s : State) (i : Instr), i ≠ .init → s.phase = none → exec i s = .fault (.absentField .phase)) ∧
  (∀ (s : State) (i : Instr), i ≠ .init → s.phase = some .active → s.bufferedLen = none →
    exec i s = .fault (.absentField .bufferedLen)) ∧
  (∀ (s : State) (p : Nat), s.phase = some .active → s.bufferedLen = some p → s.totalBits = none →
    exec .final s = .fault (.absentField .totalBits)) ∧
  (∀ (s : State) (block : List Byte), s.digestState = none →
    s.compressBlock block = .error (.absentField .digestState)) ∧
  ∀ (m : Memory) (i : Nat), i < 64 → Memory.get? m i = none → bufRead i m = .error (.absentField (.buffer i))

/-! ### Byte order, padding and length (20_memory.md, 41_padding_length.md) -/

/-- R33: `BlockWords` groups the bytes big-endian, four a word; and its example. -/
def Obligations.BlockWordsAreBigEndian : Prop :=
  (∀ block : List Byte, block.length = 64 →
    (blockWords block).length = 16 ∧
    ∀ j < 16, ((blockWords block).getD j 0).toNat =
      (block.getD (4 * j) 0).toNat * 2 ^ 24 + (block.getD (4 * j + 1) 0).toNat * 2 ^ 16 +
      (block.getD (4 * j + 2) 0).toNat * 2 ^ 8 + (block.getD (4 * j + 3) 0).toNat) ∧
  ∀ rest : List Byte, (blockWords (0x61#8 :: 0x62#8 :: 0x63#8 :: 0x80#8 :: rest)).getD 0 0 = 0x61626380#32

/-- R34: `LenBytes(L)` is the 8-byte big-endian encoding of `L`; and its example. -/
def Obligations.LenBytesAreBigEndian : Prop :=
  (∀ L : Length, (lenBytes L).length = 8 ∧ (∀ k < 8, (lenBytes L).getD k 0 = L.extractLsb' (56 - 8 * k) 8) ∧
    (lenBytes L).foldl (fun acc b => 256 * acc + b.toNat) 0 = L.toNat) ∧
  lenBytes 24 = [0x00#8, 0x00#8, 0x00#8, 0x00#8, 0x00#8, 0x00#8, 0x00#8, 0x18#8]

/-- R35: the 32 digest bytes, each word most significant byte first, in word order; and its example. -/
def Obligations.DigestBytesAreBigEndian : Prop :=
  (∀ h : Words8, (digestBytes h).length = 32 ∧
    ∀ i < 8, ∀ j < 4, (digestBytes h).getD (4 * i + j) 0 = (h.toList.getD i 0).extractLsb' (24 - 8 * j) 8) ∧
  ∀ h : Words8, h.w0 = 0xba7816bf#32 → (digestBytes h).take 4 = [0xba#8, 0x78#8, 0x16#8, 0xbf#8]

/-- R70: the length field, mod 2^64, of the values FINAL starts with, and its example. -/
def Obligations.LengthFieldIsModular : Prop :=
  (∀ (bits : Length) (p : Nat), p < 64 → (lengthField bits p).toNat = (bits.toNat + 8 * p) % 2 ^ 64) ∧
  lengthField 0 3 = 24 ∧ lenBytes (lengthField 0 3) = [0x00#8, 0x00#8, 0x00#8, 0x00#8, 0x00#8, 0x00#8, 0x00#8, 0x18#8]

/-- R76 (which the spec marks as derived, from R71 to R75): what FINAL writes into the buffer by R71 to R75, and then reads
as one or two blocks, is `PadBlocks` of the meaningful bytes, whatever the other buffer bytes were; each block is exactly 64
bytes. -/
def Obligations.PaddingInTheBufferIsPadBlocks : Prop :=
  ∀ (M : List Byte) (L : Length) (m : Memory), M.length < 64 → (∀ i < M.length, bufRead i m = .ok (M.getD i 0)) →
    finalBlocks M.length L m = .ok (padBlocks M L) ∧
    (M.length ≤ 55 → padBlocks M L = [M ++ [0x80#8] ++ zeroBytes (55 - M.length) ++ lenBytes L]) ∧
    (56 ≤ M.length → padBlocks M L = [M ++ [0x80#8] ++ zeroBytes (63 - M.length), zeroBytes 56 ++ lenBytes L]) ∧
    ∀ block ∈ padBlocks M L, block.length = 64

/-! ### The scheduler and the compression engine (42_message_schedule.md, 43_compression.md) -/

/-- R80, R81: bit `i` of `ROTR(x, n)` is bit `(i + n) mod 32` of `x`, and of `SHR(x, n)` it is bit `i + n` or 0, for `n` in
1..31; with the rules' examples. -/
def Obligations.RotateAndShiftMoveBits : Prop :=
  (∀ (x : Word) (n i : Nat), 1 ≤ n → n ≤ 31 → i < 32 →
    (rotr x n).getLsbD i = x.getLsbD ((i + n) % 32) ∧
    rotr x n = (x >>> n) ||| (x <<< (32 - n)) ∧
    (shr x n).getLsbD i = (decide (i + n ≤ 31) && x.getLsbD (i + n))) ∧
  rotr 0x00000001#32 1 = 0x80000000#32 ∧ rotr 0x12345678#32 8 = 0x78123456#32 ∧ shr 0xffffffff#32 7 = 0x01ffffff#32

/-- R82, R83, R92, R93: each bit of the four sigma functions is the exclusive or of three bits of `x`; with the rules'
examples. -/
def Obligations.SigmaFunctionsXorThreeBits : Prop :=
  (∀ (x : Word) (i : Nat), i < 32 →
    (lowerSigma0 x).getLsbD i =
      (x.getLsbD ((i + 7) % 32) ^^ x.getLsbD ((i + 18) % 32) ^^ (decide (i + 3 ≤ 31) && x.getLsbD (i + 3))) ∧
    (lowerSigma1 x).getLsbD i =
      (x.getLsbD ((i + 17) % 32) ^^ x.getLsbD ((i + 19) % 32) ^^ (decide (i + 10 ≤ 31) && x.getLsbD (i + 10))) ∧
    (upperSigma0 x).getLsbD i =
      (x.getLsbD ((i + 2) % 32) ^^ x.getLsbD ((i + 13) % 32) ^^ x.getLsbD ((i + 22) % 32)) ∧
    (upperSigma1 x).getLsbD i =
      (x.getLsbD ((i + 6) % 32) ^^ x.getLsbD ((i + 11) % 32) ^^ x.getLsbD ((i + 25) % 32))) ∧
  [0x00000000#32, 0xffffffff#32, 0x80000000#32, 0x00000001#32].map lowerSigma0 =
    [0x00000000#32, 0x1fffffff#32, 0x11002000#32, 0x02004000#32] ∧
  [0x00000000#32, 0xffffffff#32, 0x80000000#32, 0x00000018#32].map lowerSigma1 =
    [0x00000000#32, 0x003fffff#32, 0x00205000#32, 0x000f0000#32] ∧
  [0x00000000#32, 0xffffffff#32, 0x00000001#32, 0x6a09e667#32].map upperSigma0 =
    [0x00000000#32, 0xffffffff#32, 0x40080400#32, 0xce20b47e#32] ∧
  [0x00000000#32, 0xffffffff#32, 0x00000001#32, 0x510e527f#32].map upperSigma1 =
    [0x00000000#32, 0xffffffff#32, 0x04200080#32, 0x3587272b#32]

/-- R90, R91: each bit of `Ch` is chosen by `x`, each bit of `Maj` is the majority of the three; with the rules' examples. -/
def Obligations.ChooseAndMajorityBits : Prop :=
  (∀ (x y z : Word) (i : Nat), i < 32 →
    (ch x y z).getLsbD i = (if x.getLsbD i then y.getLsbD i else z.getLsbD i) ∧
    (maj x y z).getLsbD i =
      decide (2 ≤ (x.getLsbD i).toNat + (y.getLsbD i).toNat + (z.getLsbD i).toNat)) ∧
  ch 0x00000000#32 0xffffffff#32 0x12345678#32 = 0x12345678#32 ∧
  ch 0xffffffff#32 0x12345678#32 0x9abcdef0#32 = 0x12345678#32 ∧
  ch 0xf0f0f0f0#32 0xcccccccc#32 0xaaaaaaaa#32 = 0xcacacaca#32 ∧
  maj 0x00000000#32 0xffffffff#32 0x12345678#32 = 0x12345678#32 ∧
  maj 0xf0f0f0f0#32 0xcccccccc#32 0xaaaaaaaa#32 = 0xe8e8e8e8#32 ∧
  maj 0x6a09e667#32 0xbb67ae85#32 0x3c6ef372#32 = 0x3a6fe667#32

/-- R84, R85: the schedule has 64 words, the first 16 are the block's, and each later one follows the recurrence; with the
rules' examples. -/
def Obligations.ScheduleRecurrence : Prop :=
  (∀ block : List Byte, block.length = 64 →
    (schedule block).length = 64 ∧
    (∀ j < 16, (schedule block).getD j 0 = (blockWords block).getD j 0) ∧
    ∀ i, 16 ≤ i → i < 64 → (schedule block).getD i 0 =
      lowerSigma1 ((schedule block).getD (i - 2) 0) + (schedule block).getD (i - 7) 0 +
      lowerSigma0 ((schedule block).getD (i - 15) 0) + (schedule block).getD (i - 16) 0) ∧
  (schedule abcBlock).take 18 = 0x61626380#32 :: (List.replicate 14 0#32 ++ [0x00000018#32, 0x61626380#32, 0x000f0000#32])

/-- R94, R95, R97: `Compress` is the load, 64 rounds in ascending order by R95's equations with `K[t]` and `W[t]`, and the
word by word final addition (`r t` are the registers `a`..`h` before round `t`); the caller stores it into `H` and the
working state is left holding no value; with the examples of R95 and R97. -/
def Obligations.CompressRunsSixtyFourRounds : Prop :=
  (∀ (h : Words8) (block : List Byte), ∃ r : Nat → Words8,
    r 0 = h ∧
    (∀ t < 64, ∀ T1 T2 : Word,
      T1 = (r t).w7 + upperSigma1 (r t).w4 + ch (r t).w4 (r t).w5 (r t).w6 + roundConstants.getD t 0 +
        (schedule block).getD t 0 →
      T2 = upperSigma0 (r t).w0 + maj (r t).w0 (r t).w1 (r t).w2 →
      r (t + 1) = ⟨T1 + T2, (r t).w0, (r t).w1, (r t).w2, (r t).w3 + T1, (r t).w4, (r t).w5, (r t).w6⟩) ∧
    compress h block =
      ⟨h.w0 + (r 64).w0, h.w1 + (r 64).w1, h.w2 + (r 64).w2, h.w3 + (r 64).w3,
       h.w4 + (r 64).w4, h.w5 + (r 64).w5, h.w6 + (r 64).w6, h.w7 + (r 64).w7⟩) ∧
  (∀ (s : State) (h : Words8) (block : List Byte), s.digestState = some h →
    s.compressBlock block = .ok { s with digestState := some (compress h block), work := none }) ∧
  (Working.load iv abcBlock).round.regs =
    ⟨0x5d6aebcd#32, 0x6a09e667#32, 0xbb67ae85#32, 0x3c6ef372#32, 0xfa2a4622#32, 0x510e527f#32, 0x9b05688c#32,
     0x1f83d9ab#32⟩ ∧
  compress iv (0x80#8 :: zeroBytes 63) =
    ⟨0xe3b0c442#32, 0x98fc1c14#32, 0x9afbf4c8#32, 0x996fb924#32, 0x27ae41e4#32, 0x649b934c#32, 0xa495991b#32,
     0x7852b855#32⟩

/-- The published digest of "abc" (95_test_vectors.md section 1, S2), and one of a message that takes two final blocks
(section 5, 56 bytes of "a"). -/
def Obligations.PublishedDigests : Prop :=
  sha256 [0x61#8, 0x62#8, 0x63#8] = digestBytes
    ⟨0xba7816bf#32, 0x8f01cfea#32, 0x414140de#32, 0x5dae2223#32, 0xb00361a3#32, 0x96177a9c#32, 0xb410ff61#32,
     0xf20015ad#32⟩ ∧
  sha256 (List.replicate 56 0x61#8) = digestBytes
    ⟨0xb35439a4#32, 0xac6f0948#32, 0xb6d6f9e3#32, 0xc6af0f5f#32, 0x590ce20f#32, 0x1bde7090#32, 0xef797068#32,
     0x6ec6738a#32⟩

/-- R18: the table `IV`, and: `IV[i]` is the first 32 bits of the fractional part of the square root of the (i+1)-th prime:
with `m = floor(sqrt(p) * 2^32)`, the low 32 bits of `m`. That derivation is R18's own audit: "[from general knowledge, not
in source]". -/
def Obligations.InitialValuesAreSquareRoots : Prop :=
  iv.toList = [0x6a09e667#32, 0xbb67ae85#32, 0x3c6ef372#32, 0xa54ff53a#32, 0x510e527f#32, 0x9b05688c#32, 0x1f83d9ab#32,
    0x5be0cd19#32] ∧
  ∀ i < 8, ∃ p m : Nat, Nat.Prime p ∧ Nat.count Nat.Prime p = i ∧ m ^ 2 ≤ p * 2 ^ 64 ∧ p * 2 ^ 64 < (m + 1) ^ 2 ∧
    iv.toList.getD i 0 = BitVec.ofNat 32 m

/-- R19: there are 64 round constants, and `K[t]` is the first 32 bits of the fractional part of the cube root of the
(t+1)-th prime: with `m = floor(cbrt(p) * 2^32)`, the low 32 bits of `m`. R19 marks its values "[from general knowledge, not
in source]" (notes/assumptions/13.md). -/
def Obligations.RoundConstantsAreCubeRoots : Prop :=
  roundConstants.length = 64 ∧
  ∀ t < 64, ∃ p m : Nat, Nat.Prime p ∧ Nat.count Nat.Prime p = t ∧ m ^ 3 ≤ p * 2 ^ 96 ∧ p * 2 ^ 96 < (m + 1) ^ 3 ∧
    roundConstants.getD t 0 = BitVec.ofNat 32 m

/-! ### The whole machine -/

/-- The state after reset, and the state before the first reset, meet the invariant. -/
def Obligations.ResetMeetsTheInvariant : Prop := State.reset.Inv ∧ State.powerUp.Inv

/-- Every step keeps the invariant: the buffer's canonical form, no working state between commands (R22), `buffered_len`
below 64 (R12), `total_bits` a multiple of 512 (R13), and each phase's fields held or not held (R28, R60, R64). -/
def Obligations.StepKeepsTheInvariant : Prop := ∀ s t : State, s.Inv → step s = .next t → t.Inv

/-- R20's "a model that follows the rules never faults on one", and more: after the first reset, from every state that meets
the invariant, a step stops only at an unknown logic value on the command port. -/
def Obligations.StepsNeverStop : Prop :=
  ∀ s : State, s.Inv → s.phase.isSome = true → (∀ e rest, s.edges = e :: rest → e.event ≠ .unknown) →
    ∃ t, step s = .next t

/-- R44 (which the spec marks as derived, from R31, R32, R62, R73 and R74): buffer bytes at and above `buffered_len` never
affect a result: states equal up to them show the same outputs, and their steps answer states that are again equal up to
them, or the same stop. -/
def Obligations.StaleBytesNeverMatter : Prop :=
  ∀ s t : State, sameUpToStale s t →
    sameAnswer (step s) (step t) ∧ s.observe = t.observe ∧ s.cmdReady = t.cmdReady

/-- R36: after INIT and the UPDATEs of a message `M`, from any state: the last part of `M` is in the buffer from index 0 on
(byte `n` at index `n mod 64`), block `floor(n / 64)` of `M` has been compressed in order, and `total_bits` counts the
compressed blocks' bits mod 2^64. -/
def Obligations.MessageBytesLandInOrder : Prop :=
  ∀ (s : State) (M : List Byte), ∃ t,
    runCommands (.init :: M.map .update) s = .next t ∧
    t.phase = some .active ∧ t.bufferedLen = some (M.length % 64) ∧
    t.totalBits = some (BitVec.ofNat 64 (512 * (M.length / 64))) ∧
    t.digestState = some ((blocksOf M).foldl compress iv) ∧
    (∀ n, 64 * (M.length / 64) ≤ n → n < M.length → bufRead (n % 64) t.buffer = .ok (M.getD n 0)) ∧
    (∀ n < 64 * (M.length / 64), ((blocksOf M).getD (n / 64) []).getD (n % 64) 0 = M.getD n 0) ∧
    t.errSeq = s.errSeq ∧ t.errIll = s.errIll ∧ t.edges = s.edges

/-- R65 (which the spec marks as derived, from R60 to R63, R78 and R36): the digest is a function of the message alone. From
any state after the first reset, when the host presents INIT, an UPDATE a byte of `M`, and FINAL, with idle edges anywhere
between them (no dependence on timing), the run reaches DONE with the digest `SHA256(M)`, 32 bytes, the error flags as they
were. -/
def Obligations.DigestIsAFunctionOfTheMessage : Prop :=
  ∀ (s : State) (p : Phase) (M : List Byte) (es rest : List PortEdge),
    s.phase = some p → s.edges = es ++ rest → es.filter (fun e => e.event ≠ .idle) = commandEdges (hashCommands M) →
    ∃ t, runSteps es.length s = .next t ∧ t.phase = some .done ∧ t.digest = some (sha256 M) ∧
      (sha256 M).length = 32 ∧ t.errSeq = s.errSeq ∧ t.errIll = s.errIll ∧ t.edges = rest

/-- R65 and R130 under R106's premise: from a state with no error flag set, the checked run of the commands of one hash, idle
edges anywhere between them, reaches the end of a run: it is final, and the observation there is STATUS 0x0002 and the
digest `SHA256(M)` on the digest port. -/
def Obligations.CheckedRunObservesTheDigest : Prop :=
  ∀ (s : State) (M : List Byte), s.errorFree = true →
    s.edges.filter (fun e => e.event ≠ .idle) = commandEdges (hashCommands M) →
    ∃ t, checkedRun s.edges.length s = .reached t ∧ t.isFinal = true ∧
      t.observe = (some 0x0002#16, some (bitsOfBytes (sha256 M)))

/-- R78 (which the spec marks as derived, from R70, R76, R62 and R36): the flushed blocks and `PadBlocks` of what is left,
one after another, are what is compressed from INIT to FINAL, and are the padded message, whose length is a multiple of 64,
with the least such number of zero bytes. -/
def Obligations.FlushedAndFinalBlocksAreThePaddedMessage : Prop :=
  ∀ M : List Byte,
    (blocksOf M ++ padBlocks (lastPart M) (BitVec.ofNat 64 (8 * M.length))).flatten = paddedMessage M ∧
    blocksOf (paddedMessage M) = blocksOf M ++ padBlocks (lastPart M) (BitVec.ofNat 64 (8 * M.length)) ∧
    (∀ s : State, ∃ t, runCommands (hashCommands M) s = .next t ∧ t.digestState =
      some ((blocksOf M ++ padBlocks (lastPart M) (BitVec.ofNat 64 (8 * M.length))).foldl compress iv)) ∧
    (paddedMessage M).length % 64 = 0 ∧
    ∀ k, (M.length + 1 + k + 8) % 64 = 0 → ((55 - (M.length : Int)) % 64).toNat ≤ k

/-- R66 (which the spec marks as derived, from R62 and R72): how many compressions a message of `n` bytes runs: from every
state, INIT and the UPDATEs flush `floor(n / 64)` times, and the FINAL that follows makes and compresses 1 final block, or 2
when `n mod 64` is 56 or more. -/
def Obligations.CompressionCount : Prop :=
  ∀ M : List Byte,
    (∀ s : State, flushCount (.init :: M.map .update) s = M.length / 64 ∧
      ∃ t u p bits h blocks, runCommands (.init :: M.map .update) s = .next t ∧
        t.bufferedLen = some p ∧ t.totalBits = some bits ∧ t.digestState = some h ∧
        finalBlocks p (lengthField bits p) t.buffer = .ok blocks ∧
        blocks.length = (if M.length % 64 ≤ 55 then 1 else 2) ∧
        exec .final t = .next u ∧ u.digestState = some (blocks.foldl compress h)) ∧
    (blocksOf M).length = M.length / 64 ∧
    (M.length % 64 ≤ 55 → (padBlocks (lastPart M) (BitVec.ofNat 64 (8 * M.length))).length = 1) ∧
    (56 ≤ M.length % 64 → (padBlocks (lastPart M) (BitVec.ofNat 64 (8 * M.length))).length = 2)

/-! ### The assembler (30_encoding.md section 5) -/

/-- R55's examples, and: every legal word is disassembled to a line that assembles to it again. That the line of an illegal
word is an assembly error is the model's choice, as are the other details of text that R55 leaves open
(notes/assumptions/11.md). -/
def Obligations.AssemblerInvertsTheDisassembler : Prop :=
  (∀ i : Instr, assembleLine? (disassemble (encode i)) = some [encode i]) ∧
  (∀ w : CmdBits, (decode w).toOption = none → assembleLine? (disassemble w) = none) ∧
  assembleLine? "UPDATE 'a'".toList = some [0x2061#16] ∧ assembleLine? "UPDATE 0xFF ; the last byte".toList = some [0x20FF#16] ∧
  assembleLine? "UPDATE 0".toList = some [0x2000#16] ∧ assembleLine? "UPDATE 256".toList = none

/-- R56: the expansions of UPDATE_BYTES, UPDATE_STR and HASH, and that splitting the bytes differently gives the same
commands. -/
def Obligations.PseudoCommandsExpand : Prop :=
  (∀ os : List AsmOperand, (AsmLine.updateBytes os).wf = true →
    expandLine? (.updateBytes os) = some (os.map fun o => .update (operandByte o))) ∧
  (∀ text : List Char, asmTextWf text = true →
    expandLine? (.updateStr text) = some (text.map fun c => .update (BitVec.ofNat 8 c.toNat)) ∧
    expandLine? (.hash text) = some (hashCommands (text.map fun c => BitVec.ofNat 8 c.toNat))) ∧
  ∀ xs ys : List AsmOperand, lineCommands (.updateBytes (xs ++ ys)) =
    lineCommands (.updateBytes xs) ++ lineCommands (.updateBytes ys)
end

