-- ==== Sys2Proof/Laws/Memory.lean ====
section
/-! SUPPORT. The buffer's storage and its primitives: read after write, frames, and that every write keeps the canonical
form. -/

namespace Sys2Proof.Machine

/-! ### `held` and the `Except` steps -/

@[simp] theorem held_some {α : Type} (f : Field) (v : α) : held f (some v) = .ok v := rfl
@[simp] theorem held_none {α : Type} (f : Field) : held f (none : Option α) = .error (.absentField f) := rfl
@[simp] theorem ok_bind {α β : Type} (v : α) (g : α → Except Fault β) : (Except.ok v >>= g) = g v := rfl
@[simp] theorem error_bind {α β : Type} (f : Fault) (g : α → Except Fault β) :
    ((Except.error f : Except Fault α) >>= g) = .error f := rfl
@[simp] theorem answer_ok (s : State) : answer (.ok s) = .next s := rfl
@[simp] theorem answer_error (f : Fault) : answer (.error f) = .fault f := rfl

/-! ### Reading after storing -/

theorem get?_set_self (m : Memory) (i : Nat) (v : Byte) : Memory.get? (Memory.set m i v) i = some v := by
  induction m with
  | nil => simp [Memory.set, Memory.get?]
  | cons c m ih =>
    obtain ⟨a, b⟩ := c
    unfold Memory.set
    split
    · simp [Memory.get?]
    · split
      · simp [Memory.get?]
      · rename_i h1 h2
        simp [Memory.get?, h2, ih]

theorem get?_set_of_ne (m : Memory) {i j : Nat} (v : Byte) (h : j ≠ i) :
    Memory.get? (Memory.set m i v) j = Memory.get? m j := by
  induction m with
  | nil => simp [Memory.set, Memory.get?, h]
  | cons c m ih =>
    obtain ⟨a, b⟩ := c
    unfold Memory.set
    split
    · simp [Memory.get?, h]
    · split
      · rename_i h1 h2
        subst h2
        simp [Memory.get?, h]
      · simp [Memory.get?, ih]

theorem get?_setAll (vs : List Byte) (m : Memory) (i j : Nat) :
    Memory.get? (Memory.setAll m i vs) j =
      if i ≤ j ∧ j < i + vs.length then vs[j - i]? else Memory.get? m j := by
  induction vs generalizing m i with
  | nil =>
    have : ¬(i ≤ j ∧ j < i + ([] : List Byte).length) := by simp
    rw [if_neg this]
    rfl
  | cons v vs ih =>
    rw [Memory.setAll, ih]
    by_cases hj : j = i
    · subst hj
      simp [get?_set_self]
    · rw [get?_set_of_ne _ _ hj]
      by_cases h : i + 1 ≤ j ∧ j < i + 1 + vs.length
      · have h' : i ≤ j ∧ j < i + (v :: vs).length := by simp only [List.length_cons]; omega
        rw [if_pos h, if_pos h', show j - i = (j - (i + 1)) + 1 by omega, List.getElem?_cons_succ]
      · have h' : ¬(i ≤ j ∧ j < i + (v :: vs).length) := by simp only [List.length_cons]; omega
        rw [if_neg h, if_neg h']

/-! ### The canonical form -/

theorem mem_set_fst {m : Memory} {i : Nat} {v : Byte} {a : Nat} (h : a ∈ (Memory.set m i v).map Prod.fst) :
    a = i ∨ a ∈ m.map Prod.fst := by
  induction m with
  | nil => simpa [Memory.set] using h
  | cons c m ih =>
    obtain ⟨x, b⟩ := c
    unfold Memory.set at h
    split at h
    · simpa using h
    · split at h
      · rename_i h1 h2
        subst h2
        simp only [List.map_cons, List.mem_cons] at h ⊢
        tauto
      · simp only [List.map_cons, List.mem_cons] at h ⊢
        rcases h with h | h
        · exact .inr (.inl h)
        · rcases ih h with h | h
          · exact .inl h
          · exact .inr (.inr h)

theorem wf_nil : Memory.wf [] := by simp [Memory.wf]

/-- `wf` through the addresses alone. -/
theorem wf_iff (m : Memory) :
    Memory.wf m ↔ (m.map Prod.fst).Pairwise (· < ·) ∧ ∀ a ∈ m.map Prod.fst, a < 64 := by
  simp [Memory.wf, Config.blockBytes]

theorem wf_set {m : Memory} {i : Nat} (v : Byte) (hm : Memory.wf m) (hi : i < 64) :
    Memory.wf (Memory.set m i v) := by
  rw [wf_iff] at hm ⊢
  refine ⟨?_, fun a ha => ?_⟩
  · replace hm := hm.1
    induction m with
    | nil => simp [Memory.set]
    | cons c m ih =>
      obtain ⟨x, b⟩ := c
      rw [List.map_cons, List.pairwise_cons] at hm
      unfold Memory.set
      split
      · rename_i hlt
        simp only [List.map_cons, List.pairwise_cons, List.mem_cons]
        refine ⟨fun a ha => ?_, hm⟩
        rcases ha with rfl | ha
        · exact hlt
        · exact lt_trans hlt (hm.1 a ha)
      · split
        · rename_i h1 h2
          subst h2
          simpa only [List.map_cons, List.pairwise_cons] using hm
        · rename_i h1 h2
          rw [List.map_cons, List.pairwise_cons]
          refine ⟨fun a ha => ?_, ih hm.2⟩
          rcases mem_set_fst ha with rfl | ha
          · show x < a
            omega
          · exact hm.1 a ha
  · rcases mem_set_fst ha with rfl | ha
    · exact hi
    · exact hm.2 a ha

theorem wf_setAll {vs : List Byte} {m : Memory} {i : Nat} (hm : Memory.wf m) (hi : i + vs.length ≤ 64) :
    Memory.wf (Memory.setAll m i vs) := by
  induction vs generalizing m i with
  | nil => exact hm
  | cons v vs ih =>
    simp only [List.length_cons] at hi
    exact ih (wf_set v hm (by omega)) (by omega)

/-- Two memories in canonical form that read alike are equal. -/
theorem wf_ext {m n : Memory} (hm : Memory.wf m) (hn : Memory.wf n)
    (h : ∀ i, Memory.get? m i = Memory.get? n i) : m = n := by
  have below : ∀ (l : Memory) (i : Nat), (∀ a ∈ l.map Prod.fst, i < a) → Memory.get? l i = none := by
    intro l i hl
    induction l with
    | nil => rfl
    | cons c l ih =>
      obtain ⟨x, b⟩ := c
      have hx := hl x (by simp)
      rw [Memory.get?, if_neg (by omega)]
      exact ih fun a ha => hl a (by simp [ha])
  replace hm := ((wf_iff m).1 hm).1
  replace hn := ((wf_iff n).1 hn).1
  induction m generalizing n with
  | nil =>
    cases n with
    | nil => rfl
    | cons c n =>
      have := h c.1
      simp [Memory.get?] at this
  | cons c m ih =>
    obtain ⟨x, b⟩ := c
    rw [List.map_cons, List.pairwise_cons] at hm
    cases n with
    | nil =>
      have := h x
      simp [Memory.get?] at this
    | cons d n =>
      obtain ⟨y, e⟩ := d
      rw [List.map_cons, List.pairwise_cons] at hn
      have hxy : x = y := by
        rcases lt_trichotomy x y with hlt | heq | hgt
        · have h0 := h x
          rw [Memory.get?, if_pos rfl, Memory.get?, if_neg (by omega),
            below n x fun a ha => lt_trans hlt (hn.1 a ha)] at h0
          exact absurd h0 (by simp)
        · exact heq
        · have h0 := h y
          rw [Memory.get?, if_neg (by omega), below m y fun a ha => lt_trans hgt (hm.1 a ha), Memory.get?,
            if_pos rfl] at h0
          exact absurd h0 (by simp)
      subst hxy
      have hb : b = e := by simpa [Memory.get?] using h x
      subst hb
      congr 1
      refine ih (fun i => ?_) hm.2 hn.2
      by_cases hi : i = x
      · subst hi
        rw [below m i hm.1, below n i hn.1]
      · simpa [Memory.get?, hi] using h i

/-! ### The primitives -/

theorem bufWrite_ok {i : Nat} (hi : i < 64) (v : Byte) (m : Memory) : bufWrite i v m = .ok (Memory.set m i v) :=
  if_pos hi

theorem bufWrite_of_ge {i : Nat} (hi : 64 ≤ i) (v : Byte) (m : Memory) :
    bufWrite i v m = .error (.bufferIndex i) :=
  if_neg (Nat.not_lt.2 hi)

/-- Writing in range never faults. -/
theorem bufWriteAll_ok {vs : List Byte} {i : Nat} (h : i + vs.length ≤ 64) (m : Memory) :
    bufWriteAll i vs m = .ok (Memory.setAll m i vs) := by
  induction vs generalizing m i with
  | nil => rfl
  | cons v vs ih =>
    simp only [List.length_cons] at h
    rw [bufWriteAll, bufWrite_ok (by omega), ok_bind, ih (by omega), Memory.setAll]

theorem bufRead_ok {i : Nat} {m : Memory} {v : Byte} (hi : i < 64) (h : Memory.get? m i = some v) :
    bufRead i m = .ok v := by
  simp only [bufRead, Config.blockBytes, if_pos hi, h, held_some]

/-- Reading bytes that all hold a value gives them in order. -/
theorem bufReadFrom_ok {vs : List Byte} {i : Nat} {m : Memory} (hi : i + vs.length ≤ 64)
    (h : ∀ j < vs.length, Memory.get? m (i + j) = vs[j]?) : bufReadFrom i vs.length m = .ok vs := by
  induction vs generalizing i with
  | nil => rfl
  | cons v vs ih =>
    simp only [List.length_cons] at hi h
    rw [List.length_cons, bufReadFrom, bufRead_ok (v := v) (by omega) (by simpa using h 0 (by omega)), ok_bind,
      ih (by omega) fun j hj => ?_, ok_bind]
    have := h (j + 1) (by omega)
    rwa [show i + (j + 1) = i + 1 + j by omega, List.getElem?_cons_succ] at this

/-- The whole buffer, when every byte holds a value. -/
theorem bufBlock_ok {vs : List Byte} {m : Memory} (hl : vs.length = 64)
    (h : ∀ j < 64, Memory.get? m j = vs[j]?) : bufBlock m = .ok vs := by
  have := bufReadFrom_ok (vs := vs) (i := 0) (m := m) (by omega) fun j hj => by simpa using h j (by omega)
  rwa [hl] at this

/-- What reading `n` bytes depends on. -/
theorem bufReadFrom_congr {n i : Nat} {m m' : Memory}
    (h : ∀ j, i ≤ j → j < i + n → Memory.get? m j = Memory.get? m' j) : bufReadFrom i n m = bufReadFrom i n m' := by
  induction n generalizing i with
  | zero => rfl
  | succ n ih =>
    rw [bufReadFrom, bufReadFrom, bufRead, bufRead, h i (by omega) (by omega),
      ih fun j h1 h2 => h j (by omega) (by omega)]

/-- Reading the whole buffer depends on its 64 bytes alone. -/
theorem bufBlock_congr {m m' : Memory} (h : ∀ j < 64, Memory.get? m j = Memory.get? m' j) :
    bufBlock m = bufBlock m' := by
  unfold bufBlock
  exact bufReadFrom_congr fun j _ hj => h j (by simpa [Config.blockBytes] using hj)

@[simp] theorem length_zeroBytes (n : Nat) : (zeroBytes n).length = n := List.length_replicate
@[simp] theorem length_lenBytes (L : Length) : (lenBytes L).length = 8 := rfl
@[simp] theorem length_blockWords (b : List Byte) : (blockWords b).length = 16 := rfl

end Sys2Proof.Machine
end

