-- ==== Sys2Proof/Laws/Commands.lean ====
section
/-! SUPPORT. Once for each shared operation of the commands: everything it can do. -/

namespace Sys2Proof.Machine

theorem held_ok {α : Type} {f : Field} {x : Option α} {v : α} (h : held f x = .ok v) : x = some v := by
  cases x with
  | none => simp at h
  | some w => simpa using h

/-! ### Compression on the state (R97) -/

theorem compressBlock_of_some {s : State} {h : Words8} (hs : s.digestState = some h) (block : List Byte) :
    s.compressBlock block = .ok { s with digestState := some (compress h block), work := none } := by
  rw [State.compressBlock, hs, held_some, ok_bind]

theorem compressBlock_ok {s t : State} {block : List Byte} (ht : s.compressBlock block = .ok t) :
    ∃ h, s.digestState = some h ∧ t = { s with digestState := some (compress h block), work := none } := by
  cases hs : s.digestState with
  | none => simp [State.compressBlock, hs] at ht
  | some h =>
    rw [compressBlock_of_some hs] at ht
    exact ⟨h, rfl, (Except.ok.inj ht).symm⟩

/-- At least one block: `H` is folded over the blocks in order, and nothing else but the working state changes. -/
theorem compressBlocks_of_some {s : State} {h : Words8} (hs : s.digestState = some h) (block : List Byte)
    (blocks : List (List Byte)) :
    s.compressBlocks (block :: blocks) =
      .ok { s with digestState := some ((block :: blocks).foldl compress h), work := none } := by
  induction blocks generalizing s h block with
  | nil => rw [State.compressBlocks, compressBlock_of_some hs, ok_bind]; rfl
  | cons b bs ih =>
    rw [State.compressBlocks, compressBlock_of_some hs, ok_bind, ih rfl]
    rfl

theorem compressBlocks_ok {s t : State} {block : List Byte} {blocks : List (List Byte)}
    (ht : s.compressBlocks (block :: blocks) = .ok t) :
    ∃ h, s.digestState = some h ∧
      t = { s with digestState := some ((block :: blocks).foldl compress h), work := none } := by
  cases hs : s.digestState with
  | none => simp [State.compressBlocks, State.compressBlock, hs] at ht
  | some h =>
    rw [compressBlocks_of_some hs] at ht
    exact ⟨h, rfl, (Except.ok.inj ht).symm⟩

/-! ### Flush (R62) -/

theorem flush_of {s : State} {block : List Byte} {h : Words8} {bits : Length} (hb : bufBlock s.buffer = .ok block)
    (hs : s.digestState = some h) (ht : s.totalBits = some bits) :
    s.flush = .ok { s with
      digestState := some (compress h block), work := none
      totalBits := some (bits + 512#64), bufferedLen := some 0 } := by
  simp [State.flush, hb, compressBlock_of_some hs, ht]

theorem flush_ok {s t : State} (hf : s.flush = .ok t) :
    ∃ block h bits, bufBlock s.buffer = .ok block ∧ s.digestState = some h ∧ s.totalBits = some bits ∧
      t = { s with
        digestState := some (compress h block), work := none
        totalBits := some (bits + 512#64), bufferedLen := some 0 } := by
  cases hb : bufBlock s.buffer with
  | error f => simp [State.flush, hb] at hf
  | ok block =>
    cases hs : s.digestState with
    | none => simp [State.flush, hb, State.compressBlock, hs] at hf
    | some h =>
      cases ht : s.totalBits with
      | none => simp [State.flush, hb, compressBlock_of_some hs, ht] at hf
      | some bits =>
        rw [flush_of hb hs ht] at hf
        exact ⟨block, h, bits, rfl, rfl, rfl, (Except.ok.inj hf).symm⟩

/-! ### UPDATE's effect (R61) -/

/-- The state of an UPDATE before its flush. -/
def State.appended (s : State) (n : Nat) (b : Byte) : State :=
  { s with buffer := Memory.set s.buffer n b, bufferedLen := some (n + 1) }

@[simp] theorem appended_buffer (s : State) (n : Nat) (b : Byte) :
    (s.appended n b).buffer = Memory.set s.buffer n b := by
  simp only [State.appended]
@[simp] theorem appended_bufferedLen (s : State) (n : Nat) (b : Byte) :
    (s.appended n b).bufferedLen = some (n + 1) := by
  simp only [State.appended]
@[simp] theorem appended_totalBits (s : State) (n : Nat) (b : Byte) :
    (s.appended n b).totalBits = s.totalBits := by
  simp only [State.appended]
@[simp] theorem appended_digestState (s : State) (n : Nat) (b : Byte) :
    (s.appended n b).digestState = s.digestState := by
  simp only [State.appended]
@[simp] theorem appended_phase (s : State) (n : Nat) (b : Byte) :
    (s.appended n b).phase = s.phase := by
  simp only [State.appended]
@[simp] theorem appended_errSeq (s : State) (n : Nat) (b : Byte) :
    (s.appended n b).errSeq = s.errSeq := by
  simp only [State.appended]
@[simp] theorem appended_errIll (s : State) (n : Nat) (b : Byte) :
    (s.appended n b).errIll = s.errIll := by
  simp only [State.appended]
@[simp] theorem appended_work (s : State) (n : Nat) (b : Byte) :
    (s.appended n b).work = s.work := by
  simp only [State.appended]
@[simp] theorem appended_edges (s : State) (n : Nat) (b : Byte) :
    (s.appended n b).edges = s.edges := by
  simp only [State.appended]

theorem append_eq {s : State} {n : Nat} (hn : s.bufferedLen = some n) (hlt : n < 64) (b : Byte) :
    s.append b = if n + 1 = 64 then (s.appended n b).flush else .ok (s.appended n b) := by
  simp only [State.append, hn, held_some, ok_bind, bufWrite_ok hlt]
  rfl

theorem append_ok {s t : State} {b : Byte} (ht : s.append b = .ok t) :
    ∃ n, s.bufferedLen = some n ∧
      ((n < 63 ∧ t = s.appended n b) ∨ (n = 63 ∧ (s.appended 63 b).flush = .ok t)) := by
  cases hn : s.bufferedLen with
  | none => simp [State.append, hn] at ht
  | some n =>
    refine ⟨n, rfl, ?_⟩
    by_cases hlt : n < 64
    · rw [append_eq hn hlt] at ht
      split at ht
      · have h63 : n = 63 := by omega
        subst h63
        exact .inr ⟨rfl, ht⟩
      · exact .inl ⟨by omega, (Except.ok.inj ht).symm⟩
    · simp [State.append, hn, bufWrite_of_ge (Nat.not_lt.1 hlt)] at ht

/-! ### FINAL's effect (R63) -/

theorem finish_of {s : State} {p : Nat} {bits : Length} {block : List Byte} {blocks : List (List Byte)} {h : Words8}
    (hp : s.bufferedLen = some p) (hb : s.totalBits = some bits) (hs : s.digestState = some h)
    (hbl : finalBlocks p (lengthField bits p) s.buffer = .ok (block :: blocks)) :
    s.finish = .ok { s with
      buffer := [], bufferedLen := none, totalBits := none
      digestState := some ((block :: blocks).foldl compress h), work := none, phase := some .done } := by
  simp only [State.finish, hp, hb, held_some, ok_bind, hbl, compressBlocks_of_some hs]

/-- A FINAL compresses at least one block. -/
theorem finalBlocks_ok {p : Nat} {L : Length} {m : Memory} {blocks : List (List Byte)}
    (h : finalBlocks p L m = .ok blocks) : ∃ b bs, blocks = b :: bs := by
  unfold finalBlocks at h
  cases h1 : bufWriteAll p (padTail p L) m with
  | error f => simp [h1] at h
  | ok m1 =>
    cases h2 : bufBlock m1 with
    | error f => simp [h1, h2] at h
    | ok first =>
      simp only [h1, h2, ok_bind] at h
      split at h
      · exact ⟨first, [], (Except.ok.inj h).symm⟩
      · cases h3 : bufWriteAll 0 (lengthBlock L) m1 with
        | error f => simp [h3] at h
        | ok m2 =>
          cases h4 : bufBlock m2 with
          | error f => simp [h3, h4] at h
          | ok second =>
            simp only [h3, h4, ok_bind] at h
            exact ⟨first, [second], (Except.ok.inj h).symm⟩

theorem finish_ok {s t : State} (hf : s.finish = .ok t) :
    ∃ p bits block blocks h, s.bufferedLen = some p ∧ s.totalBits = some bits ∧ s.digestState = some h ∧
      finalBlocks p (lengthField bits p) s.buffer = .ok (block :: blocks) ∧
      t = { s with
        buffer := [], bufferedLen := none, totalBits := none
        digestState := some ((block :: blocks).foldl compress h), work := none, phase := some .done } := by
  cases hp : s.bufferedLen with
  | none => simp [State.finish, hp] at hf
  | some p =>
    cases hb : s.totalBits with
    | none => simp [State.finish, hp, hb] at hf
    | some bits =>
      cases hbl : finalBlocks p (lengthField bits p) s.buffer with
      | error f => simp [State.finish, hp, hb, hbl] at hf
      | ok blocks =>
        obtain ⟨block, rest, rfl⟩ := finalBlocks_ok hbl
        cases hs : s.digestState with
        | none => simp [State.finish, hp, hb, hbl, State.compressBlocks, State.compressBlock, hs] at hf
        | some h =>
          rw [finish_of hp hb hs hbl] at hf
          exact ⟨p, bits, block, rest, h, rfl, rfl, rfl, hbl, (Except.ok.inj hf).symm⟩

/-! ### INIT's effect (R60) -/

/-- The state INIT leaves. -/
def State.initialised (s : State) : State :=
  { s with
    buffer := Memory.setAll s.buffer 0 (zeroBytes 64)
    bufferedLen := some 0, totalBits := some 0#64, digestState := some iv, phase := some .active }

@[simp] theorem initialised_buffer (s : State) : s.initialised.buffer = Memory.setAll s.buffer 0 (zeroBytes 64) := by
  simp only [State.initialised]
@[simp] theorem initialised_bufferedLen (s : State) : s.initialised.bufferedLen = some 0 := by
  simp only [State.initialised]
@[simp] theorem initialised_totalBits (s : State) : s.initialised.totalBits = some 0#64 := by
  simp only [State.initialised]
@[simp] theorem initialised_digestState (s : State) : s.initialised.digestState = some iv := by
  simp only [State.initialised]
@[simp] theorem initialised_phase (s : State) : s.initialised.phase = some .active := by
  simp only [State.initialised]
@[simp] theorem initialised_errSeq (s : State) : s.initialised.errSeq = s.errSeq := by
  simp only [State.initialised]
@[simp] theorem initialised_errIll (s : State) : s.initialised.errIll = s.errIll := by
  simp only [State.initialised]
@[simp] theorem initialised_work (s : State) : s.initialised.work = s.work := by
  simp only [State.initialised]
@[simp] theorem initialised_edges (s : State) : s.initialised.edges = s.edges := by
  simp only [State.initialised]

theorem initialise_eq (s : State) : s.initialise = .ok s.initialised := by
  rw [State.initialise, Config.blockBytes, bufWriteAll_ok (by simp), ok_bind]
  rfl

/-- After INIT's writes every buffer byte is 0x00. -/
theorem get?_setAll_zeroBytes (m : Memory) {i : Nat} (hi : i < 64) :
    Memory.get? (Memory.setAll m 0 (zeroBytes 64)) i = some 0x00#8 := by
  rw [get?_setAll, if_pos (by simpa using hi), zeroBytes, List.getElem?_replicate, if_pos (by omega)]

/-! ### The phase check (R101) -/

theorem whenActive_active {s : State} (hs : s.phase = some .active) (effect : State → Except Fault State) :
    whenActive effect s = answer (effect s) := by
  rw [whenActive, hs]

theorem whenActive_next {effect : State → Except Fault State} {s t : State} (h : whenActive effect s = .next t) :
    (s.phase = some .active ∧ effect s = .ok t) ∨
      ((s.phase = some .uninit ∨ s.phase = some .done) ∧ t = s.setErrorFlag .seqError) := by
  cases hp : s.phase with
  | none => simp [whenActive, hp] at h
  | some p =>
    cases p with
    | uninit =>
      simp only [whenActive, hp, takeError, Host.Outcome.next.injEq] at h
      exact .inr ⟨.inl rfl, h.symm⟩
    | done =>
      simp only [whenActive, hp, takeError, Host.Outcome.next.injEq] at h
      exact .inr ⟨.inr rfl, h.symm⟩
    | active =>
      rw [whenActive_active hp] at h
      cases he : effect s with
      | error f => simp [he] at h
      | ok u =>
        rw [he, answer_ok, Host.Outcome.next.injEq] at h
        exact .inl ⟨rfl, by rw [h]⟩

end Sys2Proof.Machine
end

