-- ==== Sys2Proof/Laws/PerInstr.lean ====
section
/-! SUPPORT. Statements about every instruction as syntax, one lemma per constructor. -/

namespace Sys2Proof.Laws.TableRow

/-- A command's word is one its row of spec/opcode_table.json matches: the row's bits under its mask, and the operand, where
there is one, in bits 7..0 (R47 to R50). -/
def Statement : Instr → Prop
  | .init => encode .init &&& 0xFFFF#16 = 0x1000#16
  | .update b => encode (.update b) &&& 0xFF00#16 = 0x2000#16 ∧ (encode (.update b)).extractLsb' 0 8 = b
  | .final => encode .final &&& 0xFFFF#16 = 0x3000#16

theorem init : Statement .init := by unfold Statement; decide

theorem update (b : Byte) : Statement (.update b) := by
  refine ⟨?_, ?_⟩ <;> ext i hi <;> simp [encode] <;> interval_cases i <;> simp

theorem final : Statement .final := by unfold Statement; decide

end Sys2Proof.Laws.TableRow
end

