-- ==== Sys2Proof/Laws/State.lean ====
section
/-! SUPPORT. One lemma per field per named update of State, true by rfl, so that no proof unfolds a record update. -/

namespace Sys2Proof.Machine

variable (e : CmdError) (s : State) (n w : Nat)

/-! ### `setErrorFlag`: an error changes its flag and nothing else (R103) -/

@[simp] theorem setErrorFlag_buffer : (s.setErrorFlag e).buffer = s.buffer := by cases e <;> rfl
@[simp] theorem setErrorFlag_bufferedLen : (s.setErrorFlag e).bufferedLen = s.bufferedLen := by cases e <;> rfl
@[simp] theorem setErrorFlag_totalBits : (s.setErrorFlag e).totalBits = s.totalBits := by cases e <;> rfl
@[simp] theorem setErrorFlag_digestState : (s.setErrorFlag e).digestState = s.digestState := by cases e <;> rfl
@[simp] theorem setErrorFlag_phase : (s.setErrorFlag e).phase = s.phase := by cases e <;> rfl
@[simp] theorem setErrorFlag_work : (s.setErrorFlag e).work = s.work := by cases e <;> rfl
@[simp] theorem setErrorFlag_edges : (s.setErrorFlag e).edges = s.edges := by cases e <;> rfl
@[simp] theorem setErrorFlag_seq_errSeq : (s.setErrorFlag .seqError).errSeq = some true := rfl
@[simp] theorem setErrorFlag_seq_errIll : (s.setErrorFlag .seqError).errIll = s.errIll := rfl
@[simp] theorem setErrorFlag_ill_errIll : (s.setErrorFlag .illegalCommand).errIll = some true := rfl
@[simp] theorem setErrorFlag_ill_errSeq : (s.setErrorFlag .illegalCommand).errSeq = s.errSeq := rfl

/-! ### `afterReset` (R28, R120) -/

@[simp] theorem afterReset_buffer : s.afterReset.buffer = [] := rfl
@[simp] theorem afterReset_bufferedLen : s.afterReset.bufferedLen = none := rfl
@[simp] theorem afterReset_totalBits : s.afterReset.totalBits = none := rfl
@[simp] theorem afterReset_digestState : s.afterReset.digestState = none := rfl
@[simp] theorem afterReset_phase : s.afterReset.phase = some .uninit := rfl
@[simp] theorem afterReset_errSeq : s.afterReset.errSeq = some false := rfl
@[simp] theorem afterReset_errIll : s.afterReset.errIll = some false := rfl
@[simp] theorem afterReset_work : s.afterReset.work = none := rfl
@[simp] theorem afterReset_edges : s.afterReset.edges = s.edges := rfl

/-! ### `withFetchWord` -/

@[simp] theorem withFetchWord_buffer : (s.withFetchWord n w).buffer = s.buffer := rfl
@[simp] theorem withFetchWord_bufferedLen : (s.withFetchWord n w).bufferedLen = s.bufferedLen := rfl
@[simp] theorem withFetchWord_totalBits : (s.withFetchWord n w).totalBits = s.totalBits := rfl
@[simp] theorem withFetchWord_digestState : (s.withFetchWord n w).digestState = s.digestState := rfl
@[simp] theorem withFetchWord_phase : (s.withFetchWord n w).phase = s.phase := rfl
@[simp] theorem withFetchWord_errSeq : (s.withFetchWord n w).errSeq = s.errSeq := rfl
@[simp] theorem withFetchWord_errIll : (s.withFetchWord n w).errIll = s.errIll := rfl
@[simp] theorem withFetchWord_work : (s.withFetchWord n w).work = s.work := rfl
@[simp] theorem withFetchWord_edges :
    (s.withFetchWord n w).edges = PortEdge.present (tableWord n w) :: s.edges := rfl

/-- The edge that presents a word is a command edge. -/
@[simp] theorem event_present (c : CmdBits) : (PortEdge.present c).event = .command c := rfl

end Sys2Proof.Machine
end

