-- ==== Sys2Proof/Laws/Step.lean ====
section
/-! SUPPORT. What a step can do, said once: by the event of the next edge, and by the command it presents. -/

namespace Sys2Proof.Machine

theorem step_nil {s : State} (h : s.edges = []) : step s = .next s := by rw [step, h]

theorem step_cons {s : State} {e : PortEdge} {rest : List PortEdge} (h : s.edges = e :: rest) :
    step s = stepEvent e.event { s with edges := rest } := by rw [step, h]

/-- A command edge after the first reset. -/
theorem step_command {s : State} {e : PortEdge} {rest : List PortEdge} {w : CmdBits} {p : Phase}
    (h : s.edges = e :: rest) (he : e.event = .command w) (hp : s.phase = some p) :
    step s = accept w { s with edges := rest } := by
  simp only [step_cons h, he, stepEvent, acceptIfReset, hp]

/-- What a command's meaning can answer with a next state. -/
theorem exec_next {i : Instr} {s t : State} (h : exec i s = .next t) :
    (i = .init ∧ t = s.initialised) ∨
    (∃ b, i = .update b ∧ s.phase = some .active ∧ s.append b = .ok t) ∨
    (i = .final ∧ s.phase = some .active ∧ s.finish = .ok t) ∨
    (i ≠ .init ∧ (s.phase = some .uninit ∨ s.phase = some .done) ∧ t = s.setErrorFlag .seqError) := by
  cases i with
  | init =>
    rw [exec, execInit, initialise_eq, answer_ok, Host.Outcome.next.injEq] at h
    exact .inl ⟨rfl, h.symm⟩
  | update b =>
    rcases whenActive_next h with ⟨hp, ht⟩ | ⟨hp, ht⟩
    · exact .inr (.inl ⟨b, rfl, hp, ht⟩)
    · exact .inr (.inr (.inr ⟨by simp, hp, ht⟩))
  | final =>
    rcases whenActive_next h with ⟨hp, ht⟩ | ⟨hp, ht⟩
    · exact .inr (.inr (.inl ⟨rfl, hp, ht⟩))
    · exact .inr (.inr (.inr ⟨by simp, hp, ht⟩))

/-- What a step can answer with a next state: no edge, a reset, an idle edge, an illegal word, or a command. -/
theorem step_next {s t : State} (h : step s = .next t) :
    (s.edges = [] ∧ t = s) ∨
    ∃ e rest, s.edges = e :: rest ∧
      ((e.event = .reset ∧ t = { State.reset with edges := rest }) ∨
       (e.event = .idle ∧ t = { s with edges := rest }) ∨
       ∃ w, e.event = .command w ∧ s.phase.isSome ∧
         ((∃ r, decode w = .error r ∧ t = State.setErrorFlag .illegalCommand { s with edges := rest }) ∨
          ∃ i, decode w = .ok i ∧ exec i { s with edges := rest } = .next t)) := by
  cases hs : s.edges with
  | nil =>
    rw [step_nil hs, Host.Outcome.next.injEq] at h
    exact .inl ⟨rfl, h.symm⟩
  | cons e rest =>
    refine .inr ⟨e, rest, rfl, ?_⟩
    rw [step_cons hs] at h
    cases he : e.event with
    | reset =>
      simp only [he, stepEvent, Host.Outcome.next.injEq] at h
      exact .inl ⟨rfl, h.symm⟩
    | idle =>
      simp only [he, stepEvent, Host.Outcome.next.injEq] at h
      exact .inr (.inl ⟨rfl, h.symm⟩)
    | unknown => simp [he, stepEvent] at h
    | command w =>
      refine .inr (.inr ⟨w, rfl, ?_⟩)
      cases hp : s.phase with
      | none => simp [he, stepEvent, acceptIfReset, hp] at h
      | some p =>
        refine ⟨rfl, ?_⟩
        simp only [he, stepEvent, acceptIfReset, hp, accept] at h
        cases hd : decode w with
        | error r =>
          simp only [hd, takeError, Host.Outcome.next.injEq] at h
          exact .inl ⟨r, rfl, by rw [← h]⟩
        | ok i =>
          simp only [hd] at h
          exact .inr ⟨i, rfl, by rw [← h]⟩

theorem checkedStep_of_raised {s : State} {e : CmdError} (h : s.raisedError = some e) : checkedStep s = .fault (.raised e) := by
  rw [checkedStep, h]

theorem checkedStep_of_none {s : State} (h : s.raisedError = none) : checkedStep s = step s := by rw [checkedStep, h]

end Sys2Proof.Machine
end

