-- ==== Sys2Proof/Tests/Slice0.lean ====
section
/-! SUPPORT. Tests, each about one word, one value or one step; the expected values are those of spec/95_test_vectors.md,
whose section or row the comment names. Then a witness for the hypotheses of each statement that has some, a clause a
conjunct, at the boundary values of its range. -/

namespace Sys2Proof.Tests

open Sys2Proof Sys2Proof.Machine

-- one test at a time: each kernel evaluation would otherwise hold a thread of its own
set_option Elab.async false

/-! ### Small states -/

/-- A state in ACTIVE with the bytes `M` buffered, `bits` counted, and `H` = `IV`. -/
def active (M : List Byte) (bits : Length) : State :=
  { State.reset with
    buffer := Memory.setAll [] 0 M, bufferedLen := some M.length, totalBits := some bits, digestState := some iv
    phase := some .active }

/-- A state in ACTIVE as INIT leaves it, with `M` buffered: every buffer byte holds a value. -/
def activeFull (M : List Byte) : State :=
  { active M 0 with buffer := Memory.setAll (Memory.setAll [] 0 (zeroBytes 64)) 0 M }

/-- A state in DONE, with `H` = `IV`. -/
def finished : State := { State.reset with digestState := some iv, phase := some .done }

/-- `s`, with a host that presents these words. -/
def presenting (ws : List CmdBits) (s : State) : State := { s with edges := ws.map PortEdge.present }

/-- `s`, with one edge to come. -/
def atEdge (rst : Bool) (valid : Option Bool) (word : Option CmdBits) (s : State) : State :=
  { s with edges := [⟨rst, valid, word⟩] }

/-- A check of an answer's next state. -/
def nextIs (a : Answer) (p : State → Bool) : Bool :=
  match a with
  | .next t => p t
  | .fault _ => false
  | .refused _ => false

theorem active_bufRead {M : List Byte} (bits : Length) (h : M.length ≤ 64) {i : Nat} (hi : i < M.length) :
    bufRead i (active M bits).buffer = .ok (M.getD i 0) := by
  refine bufRead_ok (by omega) ?_
  simp only [active, get?_setAll]
  simp [hi]

/-! ### Decoding: words written out from R47 to R52 -/

-- OP 0001, RSV 0000, DATA 00000000 (R47)
theorem test_decode_init : decode 0b0001000000000000#16 = .ok .init := by decide
-- OP 0010, RSV 0000, DATA 01100001, the byte 'a' (R48)
theorem test_decode_update : decode 0b0010000001100001#16 = .ok (.update 0x61) := by decide
-- a byte with bit 7 set is ordinary data, and no bit of it is lost (section 6)
theorem test_decode_update_80_ff :
    decode 0b0010000010000000#16 = .ok (.update 0x80) ∧ decode 0b0010000011111111#16 = .ok (.update 0xFF) := by decide
-- OP 0011, RSV 0000, DATA 00000000 (R49)
theorem test_decode_final : decode 0b0011000000000000#16 = .ok .final := by decide
-- R51's three conditions (section 6)
theorem test_decode_illegal :
    decode 0x1001#16 = .error .data ∧ decode 0x3080#16 = .error .data ∧ decode 0x1100#16 = .error .reserved ∧
    decode 0x2100#16 = .error .reserved ∧ decode 0x2F61#16 = .error .reserved ∧ decode 0x0000#16 = .error .opcode ∧
    decode 0x4000#16 = .error .opcode ∧ decode 0xFFFF#16 = .error .opcode := by decide
theorem test_decodeTableWord :
    decodeTableWord 16 0x1000 = some .init ∧ decodeTableWord 16 0x20FF = some (.update 0xFF) ∧
    decodeTableWord 16 0x3000 = some .final ∧ decodeTableWord 16 0x3001 = none := by decide
theorem test_encode : encode .init = 0x1000#16 ∧ encode (.update 0x61) = 0x2061#16 ∧ encode .final = 0x3000#16 := by decide

/-! ### Well-formedness: an ill-formed term for each check -/

-- RSV not 0; OP not 1, 2, 3; DATA not 0 in INIT and in FINAL (R51)
theorem smoke_fields :
    (CmdFields.mk 2 1 0x61).legal = false ∧ (CmdFields.mk 0 0 0).legal = false ∧ (CmdFields.mk 4 0 0).legal = false ∧
    (CmdFields.mk 1 0 1).legal = false ∧ (CmdFields.mk 3 0 0x80).legal = false ∧
    (CmdFields.mk 2 0 0xFF).legal = true := by decide
-- operands outside 0..255, a character outside ASCII (R55)
theorem smoke_operands :
    (AsmOperand.hex 256).wf = false ∧ (AsmOperand.dec 256).wf = false ∧ (AsmOperand.chr 'é').wf = false ∧
    (AsmOperand.dec 255).wf = true := by decide
theorem smoke_text : asmTextWf ['a', 'é'] = false ∧ asmTextWf ['a', 'b'] = true := by decide
theorem smoke_lines :
    (AsmLine.update (.dec 256)).wf = false ∧ (AsmLine.updateBytes [.dec 1, .dec 256]).wf = false ∧
    (AsmLine.updateStr ['é']).wf = false ∧ (AsmLine.hash ['é']).wf = false ∧ AsmLine.blank.wf = true ∧
    AsmLine.init.wf = true ∧ AsmLine.final.wf = true := by decide

/-! ### The instructions, one step each -/

-- section 7, row 3: INIT in UNINIT
theorem test_init_from_reset :
    nextIs (step (presenting [0x1000#16] State.reset)) (fun t =>
      decide (t.statusWord = some 0x0001#16 ∧ t.digestState = some iv ∧ t.bufferedLen = some 0 ∧
        t.totalBits = some 0#64)) = true := by decide
-- section 7, row 10: INIT in DONE leaves ERR_SEQ set and the digest port without a value
theorem test_init_keeps_err_seq :
    nextIs (step (presenting [0x1000#16] { finished with errSeq := some true })) (fun t =>
      decide (t.statusWord = some 0x0005#16 ∧ t.digestPort = none)) = true := by decide
-- section 7, row 6: the byte is appended and ERR_ILL stays set
theorem test_update_appends :
    nextIs (step (presenting [0x2062#16] { active [0x61#8] 0 with errIll := some true })) (fun t =>
      decide (t.statusWord = some 0x0009#16 ∧ t.bufferedLen = some 2 ∧ t.buffer = [(0, 0x61#8), (1, 0x62#8)])) = true := by
  decide
-- section 4, W1: a flush at the wrap of total_bits
theorem test_update_flush_wraps :
    nextIs (exec (.update 0x00) (active (zeroBytes 63) 0xFFFFFFFFFFFFFE00#64)) (fun t =>
      decide (t.totalBits = some 0#64 ∧ t.bufferedLen = some 0 ∧ t.digestState = some
        ⟨0xda5698be#32, 0x17b9b469#32, 0x62335799#32, 0x779fbeca#32, 0x8ce5d491#32, 0xc0d26243#32, 0xbafef9ea#32,
         0x1837a9d8#32⟩)) = true := by decide +kernel
-- section 4, W2: FINAL with a wrapped length field; section 5, `a^63`: two final blocks, on a buffer whose last byte holds
-- no value
theorem test_final :
    nextIs (exec .final (active [0x41#8] 0xFFFFFFFFFFFFFE00#64)) (fun t =>
      decide (t.phase = some .done ∧ t.buffer = [] ∧ t.digestPort =
        some 0xf4770744cd6ffd422217ef3092372124c5de917d150c39b72e7d6c976c7ecebd#256)) = true ∧
    nextIs (exec .final (active (List.replicate 63 0x61#8) 0)) (fun t =>
      decide (t.statusWord = some 0x0002#16 ∧ t.digestPort =
        some 0x7d3e74a05d7db15bce4ad9ec0658ea98e3f06eeecf16b4c6fff2da457ddc2f34#256)) = true := by decide +kernel

/-! ### Errors and reset, one step each (section 7) -/

theorem test_seqError :
    nextIs (step (presenting [0x2061#16] State.reset)) (fun t => decide (t = { State.reset with errSeq := some true })) =
      true ∧
    nextIs (step (presenting [0x3000#16] finished)) (fun t => decide (t = { finished with errSeq := some true })) = true := by
  decide
-- section 8, P5 and P6: "The model faults at command 3", "The model faults at command 0" (R106)
theorem test_checkedStep :
    checkedRun 1 (presenting [0x2062#16, 0x3000#16] finished) = .faulted .seqError ∧
    checkedRun 2 (presenting [0x0000#16, 0x2061#16] State.reset) = .faulted .illegalCommand ∧
    checkedRun 1 (presenting [0x1000#16] State.powerUp) = .stopped := by decide
theorem test_illegalCommand :
    nextIs (step (presenting [0x1234#16] (active [0x61#8] 0))) (fun t =>
      decide (t = { active [0x61#8] 0 with errIll := some true } ∧ t.statusWord = some 0x0009#16)) = true := by decide
theorem test_illegal_before_phase :
    nextIs (step (presenting [0x2100#16] finished)) (fun t => decide (t.statusWord = some 0x000A#16)) = true := by decide
theorem test_reset_edge :
    nextIs (step (atEdge true none none { active [0x61#8] 0 with errSeq := some true })) (fun t =>
      decide (t = State.reset ∧ t.statusPort = some 0x0000#16 ∧ t.digestPort = none)) = true := by decide

/-! ### Functions (sections 1 to 5) -/

theorem test_rotr_shr :
    rotr 0x80000000#32 31 = 0x00000001#32 ∧ shr 0x80000000#32 31 = 0x00000001#32 ∧ rotr 0x12345678#32 10 = 0x9e048d15#32 ∧
    shr 0x12345678#32 10 = 0x00048d15#32 := by decide
theorem test_sigmas :
    upperSigma0 0x12345678#32 = 0x66146474#32 ∧ upperSigma1 0x12345678#32 = 0x3561abda#32 ∧
    lowerSigma0 0x12345678#32 = 0xe7fce6ee#32 ∧ lowerSigma1 0x12345678#32 = 0xa1f78649#32 := by decide
theorem test_ch_maj :
    ch 0x510e527f#32 0x9b05688c#32 0x1f83d9ab#32 = 0x1f85c98c#32 ∧
    maj 0xffffffff#32 0x12345678#32 0x9abcdef0#32 = 0x9abcdef8#32 := by decide
-- section 5: W[63] of the block 00 01 … 3f, no word zero; section 3: the registers after round 63 of the "abc" block
theorem test_schedule_rounds :
    (schedule ((List.range 64).map fun i => BitVec.ofNat 8 i)).getD 63 0 = 0x24a97715#32 ∧
    ((Working.load iv abcBlock).run 64).regs =
      ⟨0x506e3058#32, 0xd39a2165#32, 0x04d24d6c#32, 0xb85e2ce9#32, 0x5ef50f24#32, 0xfb121210#32, 0x948d25b6#32,
       0x961f4894#32⟩ := by decide +kernel
theorem test_lenBytes :
    lenBytes 448#64 = [0x00#8, 0x00#8, 0x00#8, 0x00#8, 0x00#8, 0x00#8, 0x01#8, 0xc0#8] ∧
    lengthField 0xFFFFFFFFFFFFFE00#64 1 = 0xFFFFFFFFFFFFFE08#64 := by decide

/-! ### The assembler (R55, R56) -/

theorem test_assembler :
    assemble? ["; one hash".toList, "HASH \"a;\" ; two bytes".toList, "UPDATE_BYTES 0x80, ',', 7".toList] =
      some [0x1000#16, 0x2061#16, 0x203B#16, 0x3000#16, 0x2080#16, 0x202C#16, 0x2007#16] ∧
    assembleLine? "update 1".toList = none ∧
    disassemble 0x20FF#16 = "UPDATE 0xff".toList ∧ disassemble 0x2F61#16 = ".word 0x2f61".toList := by decide +kernel

/-! ### Witnesses for hypotheses -/

theorem witness_DecodeEncodeAgree : decode 0x2000#16 = .ok (.update 0x00) ∧ decode 0x20FF#16 = .ok (.update 0xFF) := by decide

theorem witness_IllegalWordsAreThoseOfTheRule :
    (presenting [0x2100#16] State.reset).phase = some .uninit ∧
    (presenting [0x2100#16] State.reset).edges = PortEdge.present 0x2100#16 :: [] ∧
    decode 0x2100#16 = .error .reserved := by decide

theorem witness_StepRunsTheDecodedCommand :
    ((presenting [0x1000#16] State.reset).phase = some .uninit ∧
      (presenting [0x1000#16] State.reset).edges = PortEdge.present 0x1000#16 :: [] ∧
      (PortEdge.present 0x1000#16).rst = false ∧ (PortEdge.present 0x1000#16).cmdValid = some true ∧
      (PortEdge.present 0x1000#16).cmdWord = some 0x1000#16 ∧ decode 0x1000#16 = .ok .init) ∧
    (finished.phase = some .done ∧ decodeTableWord 16 0x3000 = some .final) := by decide

theorem witness_ResetEdgeGivesTheResetState :
    (atEdge true none none (active [0x61#8] 0)).edges = ⟨true, none, none⟩ :: [] := by decide

theorem witness_IdleEdgesChangeNothing :
    State.reset.edges = [] ∧
    (atEdge false (some false) (some 0#16) finished).edges = ⟨false, some false, some 0#16⟩ :: [] := by decide

theorem witness_PowerUpNeedsReset :
    (PortEdge.mk true none none).rst = true ∧ (PortEdge.mk false (some false) (some 0#16)).event = .idle ∧
    State.powerUp.rst = false ∧ (presenting [0x1000#16] State.powerUp).rst = false := by decide

theorem witness_UnknownDriveStops :
    (atEdge false none (some 0x1000#16) State.reset).edges = ⟨false, none, some 0x1000#16⟩ :: [] ∧
    (atEdge false (some true) none State.reset).edges = ⟨false, some true, none⟩ :: [] := by decide

theorem witness_StatusWordLayout :
    finished.phase = some .done ∧ finished.errSeq = some false ∧ finished.errIll = some false := by decide

theorem witness_OutputsOnlyWhenReady :
    (finished.rst = false ∧ finished.cmdReady = some true) ∧
    (atEdge true none none finished).cmdReady ≠ some true ∧ State.powerUp.cmdReady ≠ some true ∧ (atEdge true none none finished).rst = true := by decide

theorem witness_DigestPortLayout :
    (finished.phase = some .done ∧ finished.cmdReady = some true ∧ finished.digestState = some iv) ∧
    (active [] 0).phase ≠ some .done := by decide

theorem witness_InitLeavesAFreshState :
    Memory.wf finished.buffer ∧ Memory.wf (active [0x61#8] 0).buffer ∧
    nextIs (exec .init (active [0x61#8] 0)) (fun _ => true) = true ∧ State.reset.errSeq = some false ∧
    State.reset.errIll = some false := by decide

theorem witness_UpdateAppendsOrFlushes :
    (State.reset.phase = some .uninit ∧ finished.phase = some .done) ∧
    ((active [] 0).phase = some .active ∧ (active [] 0).bufferedLen = some 0) ∧
    ((active (zeroBytes 62) 0).phase = some .active ∧ (active (zeroBytes 62) 0).bufferedLen = some 62) ∧
    (let s := active (zeroBytes 63) 0xFFFFFFFFFFFFFE00#64
     s.phase = some .active ∧ s.bufferedLen = some 63 ∧ (zeroBytes 63).length = 63 ∧
      (∀ i < 63, bufRead i s.buffer = .ok ((zeroBytes 63).getD i 0)) ∧ s.digestState = some iv ∧
      s.totalBits = some 0xFFFFFFFFFFFFFE00#64) :=
  ⟨⟨rfl, rfl⟩, ⟨rfl, rfl⟩, ⟨rfl, rfl⟩, rfl, rfl, rfl, fun _ hi => active_bufRead _ (by decide) hi, rfl, rfl⟩

/-- The premises of FINAL's statement, for a message of `n` bytes. -/
def finalPremises (n : Nat) : Prop :=
  let M := List.replicate n 0x61#8
  let s := active M 0
  s.phase = some .active ∧ s.bufferedLen = some M.length ∧ M.length < 64 ∧
    (∀ i < M.length, bufRead i s.buffer = .ok (M.getD i 0)) ∧ s.digestState = some iv ∧ s.totalBits = some 0#64 ∧
    s.errSeq = some false ∧ s.errIll = some false

theorem finalPremises_of_lt {n : Nat} (h : n < 64) : finalPremises n :=
  ⟨rfl, rfl, by simpa using h, fun _ hi => active_bufRead 0 (by simp; omega) hi, rfl, rfl, rfl, rfl⟩

theorem witness_FinalPadsAndCompresses :
    (State.reset.phase = some .uninit ∧ finished.phase = some .done) ∧
    finalPremises 0 ∧ finalPremises 55 ∧ finalPremises 56 ∧ finalPremises 63 :=
  ⟨⟨rfl, rfl⟩, finalPremises_of_lt (by decide), finalPremises_of_lt (by decide), finalPremises_of_lt (by decide),
    finalPremises_of_lt (by decide)⟩

theorem witness_BufWriteTouchesOneByte :
    (0 ≤ 63 ∧ 63 ≤ 63) ∧ 63 < 64 ∧
    ((active (zeroBytes 64) 0).phase = some .active ∧ (active (zeroBytes 64) 0).bufferedLen = some 64) := ⟨by decide, by decide, rfl, rfl⟩

theorem witness_OnlyInitOrResetLeavesDone :
    ((active [0x61#8] 0).phase = some .active ∧ nextIs (exec .final (active [0x61#8] 0)) (fun _ => true) = true) ∧
    (finished.phase = some .done ∧ Instr.update 0x61 ≠ .init ∧ Instr.final ≠ .init) ∧
    nextIs (step (presenting [0x1000#16] finished)) (fun t => decide (t.phase ≠ some .done)) = true ∧
    nextIs (step (atEdge true none none finished)) (fun t => decide (t.phase ≠ some .done)) = true := by decide +kernel

theorem witness_PhaseTransitions :
    (nextIs (step (atEdge true none none finished)) (fun _ => true) = true ∧
      (PortEdge.mk true none none).event = .reset) ∧
    (nextIs (step (atEdge false (some false) (some 0#16) finished)) (fun _ => true) = true ∧
      (PortEdge.mk false (some false) (some 0#16)).event = .idle) ∧
    (nextIs (step (presenting [0x1000#16] finished)) (fun _ => true) = true ∧ decode 0x1000#16 = .ok .init) ∧
    (nextIs (step (presenting [0x3000#16] (active [] 0))) (fun _ => true) = true ∧ decode 0x3000#16 = .ok .final ∧
      (presenting [0x3000#16] (active [] 0)).phase = some .active) ∧
    (nextIs (step (presenting [0x3000#16] finished)) (fun _ => true) = true ∧ decode 0x3000#16 ≠ .ok .init ∧
      ¬(decode 0x3000#16 = .ok .final ∧ finished.phase = some .active)) ∧
    (finished.phase = some .done ∧ finished.statusWord = some 0x0002#16) := by decide +kernel

theorem witness_WhoWritesTotalBitsAndDigest :
    nextIs (exec .init State.reset) (fun _ => true) = true ∧
    nextIs (exec (.update 0x00) (active (zeroBytes 62) 0)) (fun t => decide (t.totalBits = some 0#64)) = true ∧
    nextIs (exec (.update 0x00) (active (zeroBytes 63) 0)) (fun t => decide (t.totalBits = some 512#64)) = true ∧
    nextIs (exec .final (active [] 0)) (fun t => decide (t.totalBits = none)) = true ∧
    nextIs (exec .final finished) (fun t => decide (t.digestState = some iv)) = true ∧
    (nextIs (step (atEdge true none none finished)) (fun _ => true) = true ∧ (PortEdge.mk true none none).event = .reset) ∧
    (nextIs (step (atEdge false (some false) (some 0#16) finished)) (fun _ => true) = true ∧
      (PortEdge.mk false (some false) (some 0#16)).event = .idle) ∧
    (nextIs (step (presenting [0x3000#16] finished)) (fun _ => true) = true ∧ decode 0x3000#16 = .ok .final) ∧
    (nextIs (step (presenting [0x2100#16] finished)) (fun _ => true) = true ∧ decode 0x2100#16 = .error .reserved) ∧
    (finished.edges = [] ∧ nextIs (step finished) (fun _ => true) = true) := by decide +kernel

theorem witness_SequencingErrors :
    Instr.update 0x61 ≠ .init ∧ Instr.final ≠ .init ∧ State.reset.phase = some .uninit ∧ finished.phase = some .done := by
  decide

theorem witness_ErrorsArePrecise :
    ((presenting [0x3000#16, 0x1000#16] finished).phase = some .done ∧
      (presenting [0x3000#16, 0x1000#16] finished).raisedError = some .seqError ∧
      nextIs (step (presenting [0x3000#16, 0x1000#16] finished)) (fun t => !t.rst) = true) ∧
    ((presenting [0x0000#16] State.reset).phase = some .uninit ∧
      (presenting [0x0000#16] State.reset).raisedError = some .illegalCommand) := by decide

theorem witness_DecodeComesBeforePhase :
    ((presenting [0x2100#16] finished).phase = some .done ∧ decode 0x2100#16 = .error .reserved ∧
      (presenting [0x2100#16] finished).edges = PortEdge.present 0x2100#16 :: []) ∧
    (decode 0x2061#16 = .ok (.update 0x61) ∧
      nextIs (step (presenting [0x2061#16] finished)) (fun _ => true) = true ∧
      nextIs (step (presenting [0x2061#16] (active [] 0))) (fun _ => true) = true ∧
      (presenting [0x2061#16] (active [] 0)).edges = PortEdge.present 0x2061#16 :: []) := by decide

theorem witness_ErrorFlagsAreSticky :
    (let s := presenting [0x1000#16] { finished with errSeq := some true, errIll := some true }
     nextIs (step s) (fun _ => true) = true ∧ s.rst = false ∧ s.errSeq = some true ∧ s.errIll = some true ∧
      s.raisedError = none) ∧
    commandError (.update 0x61) (active [] 0) = none ∧ commandError .final (active [] 0) = none ∧
    nextIs (exec (.update 0x61) (active [] 0)) (fun _ => true) = true := by decide

theorem witness_CheckedStepFaultsAtEachError :
    ((presenting [0x2100#16] (active [] 0)).phase = some .active ∧ decode 0x2100#16 = .error .reserved) ∧
    ((presenting [0x3000#16] finished).phase = some .done ∧ decode 0x3000#16 = .ok .final ∧ Phase.done ≠ .active) ∧
    ((presenting [0x1000#16] State.reset).phase = some .uninit ∧ decode 0x1000#16 = .ok .init ∧
      (presenting [0x1000#16] State.reset).raisedError = none) ∧
    checkedRun 1 (presenting [0x2061#16, 0x1000#16] State.reset) = .faulted .seqError ∧
    (nextIs (step (presenting [0x0000#16] State.reset)) (fun _ => true) = true ∧
      (presenting [0x0000#16] State.reset).raisedError.isSome = true) := by decide

theorem witness_CheckedRunObservesTheDigest :
    (presenting [0x1000#16, 0x2061#16, 0x3000#16] finished).errorFree = true ∧
    (presenting [0x1000#16, 0x2061#16, 0x3000#16] finished).edges.filter (fun e => e.event ≠ .idle) =
      commandEdges (hashCommands [0x61#8]) ∧
    (presenting [0x1000#16, 0x3000#16] State.reset).errorFree = true ∧
    (presenting [0x1000#16, 0x3000#16] State.reset).edges.filter (fun e => e.event ≠ .idle) =
      commandEdges (hashCommands []) := by decide

theorem witness_FaultedRunsEndWithAnErrorFlag :
    (let s := presenting [0x1000#16, 0x2061#16] State.reset
     s.errorFree = true ∧ (∀ e ∈ s.edges, e.rst = false) ∧ nextIs (runSteps 2 s) (fun t => t.errorFree) = true) ∧
    (let s := presenting [0x2061#16, 0x1000#16] State.reset
     s.errorFree = true ∧ (∀ e ∈ s.edges, e.rst = false) ∧ nextIs (runSteps 2 s) (fun t => !t.errorFree) = true) := by decide

theorem witness_AbsentFieldsFault :
    (Instr.final ≠ .init ∧ State.powerUp.phase = none) ∧
    (let s := { active [] 0 with bufferedLen := none }
     s.phase = some .active ∧ s.bufferedLen = none) ∧
    (let s := { active [] 0 with totalBits := none }
     s.phase = some .active ∧ s.bufferedLen = some 0 ∧ s.totalBits = none) ∧
    State.reset.digestState = none ∧
    (Memory.get? State.reset.buffer 0 = none ∧ Memory.get? (active (zeroBytes 63) 0).buffer 63 = none) := by decide +kernel

theorem witness_BlockWordsAreBigEndian : abcBlock.length = 64 := by decide

theorem witness_DigestBytesAreBigEndian : (Words8.mk 0xba7816bf#32 0 0 0 0 0 0 0).w0 = 0xba7816bf#32 := by decide

theorem witness_LengthFieldIsModular : 0 < 64 ∧ 63 < 64 := by decide

/-- The premises of the padding statement, for a message of `n` bytes. -/
def paddingPremises (n : Nat) : Prop :=
  let M := List.replicate n 0x61#8
  M.length < 64 ∧ ∀ i < M.length, bufRead i (Memory.setAll [] 0 M) = .ok (M.getD i 0)

theorem paddingPremises_of_lt {n : Nat} (h : n < 64) : paddingPremises n :=
  ⟨by simpa using h, fun _ hi => active_bufRead 0 (by simp; omega) hi⟩

theorem witness_PaddingInTheBufferIsPadBlocks :
    paddingPremises 0 ∧ paddingPremises 55 ∧ paddingPremises 56 ∧ paddingPremises 63 ∧
    (List.replicate 55 0x61#8).length ≤ 55 ∧ 56 ≤ (List.replicate 56 0x61#8).length :=
  ⟨paddingPremises_of_lt (by decide), paddingPremises_of_lt (by decide), paddingPremises_of_lt (by decide),
    paddingPremises_of_lt (by decide), by decide, by decide⟩

theorem witness_RotateAndShiftMoveBits :
    (1 ≤ 1 ∧ 1 ≤ 31 ∧ 0 < 32) ∧ (1 ≤ 31 ∧ 31 ≤ 31 ∧ 31 < 32) := by decide

theorem witness_ScheduleRecurrence : abcBlock.length = 64 ∧ 15 < 16 ∧ (16 ≤ 16 ∧ 63 < 64) := by decide

theorem witness_CompressRunsSixtyFourRounds : 0 < 64 ∧ 63 < 64 ∧ finished.digestState = some iv := by decide

theorem witness_StepKeepsTheInvariant :
    State.Inv (presenting [0x1000#16] State.reset) ∧
    nextIs (step (presenting [0x1000#16] State.reset)) (fun _ => true) = true := by
  refine ⟨⟨by decide, rfl, ⟨rfl, rfl, rfl⟩, rfl, rfl, rfl⟩, by decide⟩

/-- The hypotheses of "a step never stops" in ACTIVE, at the last byte of a block. -/
theorem witness_StepsNeverStop :
    let s := presenting [0x2061#16] (activeFull (zeroBytes 63))
    s.Inv ∧ s.phase.isSome = true ∧ ∀ e rest, s.edges = e :: rest → e.event ≠ .unknown := by
  refine ⟨⟨by decide +kernel, rfl, ⟨by decide +kernel, ⟨63, by decide +kernel, by decide⟩, ⟨0, rfl, by decide⟩⟩, rfl, rfl, rfl⟩,
    rfl, ?_⟩
  intro e rest h
  have : e = PortEdge.present 0x2061#16 := (List.cons.inj h).1.symm
  subst this
  decide

theorem witness_StaleBytesNeverMatter :
    sameUpToStale (active [0x61#8] 0) { active [0x61#8] 0 with buffer := [(0, 0x61#8), (1, 0xFF#8), (63, 0xFF#8)] } ∧
    sameUpToStale finished finished := by
  refine ⟨⟨rfl, .inr ⟨rfl, 1, rfl, by decide⟩⟩, ⟨rfl, .inl ⟨by decide, rfl⟩⟩⟩

theorem witness_MessageBytesLandInOrder :
    (let M := List.replicate 65 0x61#8
     64 * (M.length / 64) ≤ 64 ∧ 64 < M.length ∧ 63 < 64 * (M.length / 64)) ∧
    (let M := List.replicate 63 0x61#8
     64 * (M.length / 64) ≤ 0 ∧ 62 < M.length) := by decide

theorem witness_DigestIsAFunctionOfTheMessage :
    (let es := [PortEdge.present 0x1000#16, ⟨false, some false, some 0#16⟩, PortEdge.present 0x2061#16,
      PortEdge.present 0x3000#16]
     { finished with edges := es ++ [] }.phase = some .done ∧
      es.filter (fun e => e.event ≠ .idle) = commandEdges (hashCommands [0x61#8])) ∧
    (presenting [0x1000#16, 0x3000#16] State.reset).edges = [0x1000#16, 0x3000#16].map PortEdge.present ++ [] ∧
    ([0x1000#16, 0x3000#16].map PortEdge.present).filter (fun e => e.event ≠ .idle) = commandEdges (hashCommands []) := by
  decide

theorem witness_FlushedAndFinalBlocksAreThePaddedMessage :
    (([] : List Byte).length + 1 + 55 + 8) % 64 = 0 ∧ ((List.replicate 56 0x61#8).length + 1 + 63 + 8) % 64 = 0 := by decide

theorem witness_CompressionCount :
    (List.replicate 55 0x61#8).length % 64 ≤ 55 ∧ 56 ≤ (List.replicate 56 0x61#8).length % 64 ∧
    (List.replicate 64 0x61#8).length % 64 ≤ 55 ∧ 56 ≤ (List.replicate 63 0x61#8).length % 64 := by decide

theorem witness_AssemblerInvertsTheDisassembler : (decode 0x0000#16).toOption = none := by decide

theorem witness_PseudoCommandsExpand :
    (AsmLine.updateBytes [.hex 0, .dec 255, .chr 'a']).wf = true ∧ (AsmLine.updateBytes []).wf = true ∧
    asmTextWf [] = true ∧ asmTextWf [Char.ofNat 0, Char.ofNat 127] = true := by decide

end Sys2Proof.Tests
end

/-! SUPPORT. The statements of 10_state.md on the digest port (R26) and the phase (R15), with the lemmas they need. -/

namespace Sys2Proof.Machine

/-! ### Bytes on a port: the last byte lies in the lowest eight bits (R26) -/

@[simp] theorem bitsOfBytes_nil : bitsOfBytes [] = 0#256 := rfl

theorem bitsOfBytes_concat (bs : List Byte) (b : Byte) :
    bitsOfBytes (bs ++ [b]) = (bitsOfBytes bs <<< 8) ||| b.zeroExtend 256 := by
  simp [bitsOfBytes]

/-- Counted from the end, byte `j` lies at bit `8 * j`; beyond the list the port's bits are 0. -/
theorem extractLsb'_bitsOfBytes (bs : List Byte) {j : Nat} (hj : j < 32) :
    (bitsOfBytes bs).extractLsb' (8 * j) 8 = bs.reverse.getD j 0 := by
  induction bs using List.reverseRecOn generalizing j with
  | nil => simp
  | append_singleton bs b ih =>
    rw [bitsOfBytes_concat, List.reverse_concat]
    cases j with
    | zero =>
      ext i hi
      simp [hi, show i < 256 by omega]
    | succ j =>
      rw [List.getD_cons_succ, ← ih (by omega)]
      ext i hi
      have hlt : 8 * (j + 1) + i < 256 := by omega
      have hge : ¬8 * (j + 1) + i < 8 := by omega
      have hsub : 8 * (j + 1) + i - 8 = 8 * j + i := by omega
      have hb : b.getLsbD (8 * (j + 1) + i) = false := b.getLsbD_of_ge _ (by omega)
      simp [hlt, hge, hsub, hb, BitVec.getLsbD_eq_getElem (show 8 * j + i < 256 by omega)]

/-! ### The digest's bytes (R35) -/

/-- The bytes of a list of words, four to a word. -/
theorem getD_flatMap_wordBytes (ws : List Word) (i : Nat) {j : Nat} (hj : j < 4) :
    (ws.flatMap wordBytes).getD (4 * i + j) 0 = (ws.getD i 0).extractLsb' (24 - 8 * j) 8 := by
  have hlen (w : Word) : (wordBytes w).length = 4 := rfl
  induction ws generalizing i with
  | nil => simp
  | cons w ws ih =>
    rw [List.flatMap_cons]
    cases i with
    | zero =>
      rw [List.getD_append _ _ _ _ (by rw [hlen]; omega), List.getD_cons_zero]
      simp [wordBytes, hj]
    | succ i =>
      rw [List.getD_append_right _ _ _ _ (by rw [hlen]; omega), List.getD_cons_succ, ← ih i, hlen]
      congr 1
      omega

@[simp] theorem length_digestBytes (h : Words8) : (digestBytes h).length = 32 := rfl

theorem getD_digestBytes (h : Words8) (i : Nat) {j : Nat} (hj : j < 4) :
    (digestBytes h).getD (4 * i + j) 0 = (h.toList.getD i 0).extractLsb' (24 - 8 * j) 8 :=
  getD_flatMap_wordBytes h.toList i hj

/-! ### The digest port (R26) -/

/-- The first byte of the digest is on the port's top eight bits. -/
theorem extractLsb'_byte_bitsOfBytes_digestBytes (h : Words8) {k : Nat} (hk : k < 32) :
    (bitsOfBytes (digestBytes h)).extractLsb' (248 - 8 * k) 8 = (digestBytes h).getD k 0 := by
  have hpos : 248 - 8 * k = 8 * (31 - k) := by omega
  have hrev : (digestBytes h).length - 1 - (31 - k) = k := by rw [length_digestBytes]; omega
  rw [hpos, extractLsb'_bitsOfBytes _ (by omega), List.getD_reverse _ (by rw [length_digestBytes]; omega), hrev]

/-- The words of `H` are on the port big-endian: bit `b` of word `i` is a bit of byte `4 * i + (3 - b / 8)`. -/
theorem extractLsb'_word_bitsOfBytes_digestBytes (h : Words8) {i : Nat} (hi : i < 8) :
    (bitsOfBytes (digestBytes h)).extractLsb' (224 - 32 * i) 32 = h.toList.getD i 0 := by
  refine BitVec.eq_of_getLsbD_eq fun b hb => ?_
  have hbyte := (extractLsb'_byte_bitsOfBytes_digestBytes h (k := 4 * i + (3 - b / 8)) (by omega)).trans
    (getD_digestBytes h i (by omega))
  have hport : 248 - 8 * (4 * i + (3 - b / 8)) + b % 8 = 224 - 32 * i + b := by omega
  have hword : 24 - 8 * (3 - b / 8) + b % 8 = b := by omega
  have hbit := congrArg (fun x => x.getLsbD (b % 8)) hbyte
  have hmod : b % 8 < 8 := by omega
  simp only [BitVec.getLsbD_extractLsb', hport, hword, hmod, decide_true, Bool.true_and] at hbit
  rw [BitVec.getLsbD_extractLsb', hbit]
  simp [hb]

theorem digestPort_done {s : State} {h : Words8} (hp : s.phase = some .done) (hr : s.cmdReady = some true)
    (hs : s.digestState = some h) : s.digestPort = some (bitsOfBytes (digestBytes h)) := by
  rw [State.digestPort, if_pos hr, State.digest, if_pos hp, hs]
  rfl

theorem digestPort_of_ne_done {s : State} (hp : s.phase ≠ some .done) : s.digestPort = none := by
  rw [State.digestPort, State.digest, if_neg hp, Option.map_none, ite_self]

/-! ### Who writes the phase (R15) -/

theorem append_phase {s t : State} {b : Byte} (h : s.append b = .ok t) : t.phase = s.phase := by
  obtain ⟨n, -, ⟨-, rfl⟩ | ⟨-, hf⟩⟩ := append_ok h
  · exact appended_phase s n b
  · obtain ⟨block, hw, bits, -, -, -, rfl⟩ := flush_ok hf
    exact appended_phase s 63 b

theorem finish_phase {s t : State} (h : s.finish = .ok t) : t.phase = some .done := by
  obtain ⟨p, bits, block, blocks, hw, -, -, -, -, rfl⟩ := finish_ok h
  rfl

/-- INIT sets ACTIVE, FINAL in ACTIVE sets DONE, and no other command changes the phase. -/
theorem exec_phase {i : Instr} {s t : State} (h : exec i s = .next t) :
    (i = .init ∧ t.phase = some .active) ∨
    (i = .final ∧ s.phase = some .active ∧ t.phase = some .done) ∨
    (i ≠ .init ∧ ¬(i = .final ∧ s.phase = some .active) ∧ t.phase = s.phase) := by
  obtain ⟨rfl, rfl⟩ | ⟨b, rfl, -, ha⟩ | ⟨rfl, hp, hf⟩ | ⟨hi, hp, rfl⟩ := exec_next h
  · exact .inl ⟨rfl, initialised_phase s⟩
  · exact .inr (.inr ⟨by simp, by simp, append_phase ha⟩)
  · exact .inr (.inl ⟨rfl, hp, finish_phase hf⟩)
  · have hna : s.phase ≠ some .active := by rcases hp with hp | hp <;> simp [hp]
    exact .inr (.inr ⟨hi, fun hfa => hna hfa.2, setErrorFlag_phase _ s⟩)

/-- The phase after a step that answers, by the event of its edge. -/
theorem step_phase {s t : State} {e : PortEdge} {rest : List PortEdge} (hs : s.edges = e :: rest)
    (h : step s = .next t) :
    (e.event = .reset → t.phase = some .uninit) ∧
    (e.event = .idle → t.phase = s.phase) ∧
    ∀ w, e.event = .command w →
      (decode w = .ok .init → t.phase = some .active) ∧
      (decode w = .ok .final → s.phase = some .active → t.phase = some .done) ∧
      (decode w ≠ .ok .init → ¬(decode w = .ok .final ∧ s.phase = some .active) → t.phase = s.phase) := by
  obtain ⟨hnil, -⟩ | ⟨e', rest', hs', hev⟩ := step_next h
  · simp [hs] at hnil
  obtain ⟨rfl, rfl⟩ : e = e' ∧ rest = rest' := by simpa [hs] using hs'
  obtain ⟨he, rfl⟩ | ⟨he, rfl⟩ | ⟨w, he, -, ⟨r, hd, rfl⟩ | ⟨i, hd, hx⟩⟩ := hev
  · simp [he, State.reset]
  · simp [he]
  · simp [he, hd]
  · obtain ⟨rfl, ht⟩ | ⟨rfl, hp, ht⟩ | ⟨hi, hf, ht⟩ := exec_phase hx
    · simp [he, hd, ht]
    · change s.phase = some .active at hp
      simp [he, hd, hp, ht]
    · refine ⟨by simp [he], by simp [he], fun v hv => ?_⟩
      obtain rfl : w = v := EdgeEvent.command.inj (he.symm.trans hv)
      have hdec {c : Instr} (hc : decode w = .ok c) : i = c := Except.ok.inj (hd.symm.trans hc)
      exact ⟨fun h1 => absurd (hdec h1) hi, fun h2 hp => absurd ⟨hdec h2, hp⟩ hf, fun _ _ => ht⟩

theorem Phase.code_ne_three (p : Phase) : p.code ≠ 0b11#2 := by cases p <;> decide

/-- STATUS[1:0] is the phase's code (R25). -/
theorem extractLsb'_statusBits (p : Phase) (q i : Bool) : (statusBits p q i).extractLsb' 0 2 = p.code := by
  cases p <;> cases q <;> cases i <;> decide

theorem statusWord_some {s : State} {st : BitVec 16} (h : s.statusWord = some st) :
    ∃ p q i, s.phase = some p ∧ s.errSeq = some q ∧ s.errIll = some i ∧ st = statusBits p q i := by
  unfold State.statusWord at h
  split at h
  next p q i hp hq hi => exact ⟨p, q, i, hp, hq, hi, (Option.some.inj h).symm⟩
  next => simp at h

/-! ### The statements -/

/-- Settles O13: the port is `bitsOfBytes (digestBytes H)`, whose byte `k` stands `31 - k` bytes from the end; a word's bits
are found in its four bytes. -/
theorem digestPortLayout : Obligations.DigestPortLayout :=
  ⟨fun _ h hp hr hs => ⟨_, digestPort_done hp hr hs,
      fun _ hk => extractLsb'_byte_bitsOfBytes_digestBytes h hk,
      fun _ hi => extractLsb'_word_bitsOfBytes_digestBytes h hi⟩,
    fun _ hp => digestPort_of_ne_done hp⟩

/-- Settles O19, by the cases of a step that answers and of the command its word decodes to. -/
theorem phaseTransitions : Obligations.PhaseTransitions := by
  refine ⟨fun s t e rest hs h => step_phase hs h, rfl, rfl, rfl, Phase.code_ne_three, fun s p st hp hst => ?_⟩
  obtain ⟨p', q, i, hp', -, -, rfl⟩ := statusWord_some hst
  obtain rfl : p = p' := Option.some.inj (hp.symm.trans hp')
  exact extractLsb'_statusBits p q i

end Sys2Proof.Machine

/-! SUPPORT. The statements of 20_memory.md on the three byte orders (R33 to R35), with the lemmas they need. -/

namespace Sys2Proof.Machine

/-! ### Four bytes as a word (R33) -/

/-- The shifts and ors of R33 put the bytes side by side. -/
theorem wordOfBytes_eq_append (b0 b1 b2 b3 : Byte) : wordOfBytes b0 b1 b2 b3 = b0 ++ b1 ++ b2 ++ b3 := by
  have hor : (b0 ++ b1 ++ b2 ++ b3).setWidth 32 = wordOfBytes b0 b1 b2 b3 := by
    rw [BitVec.setWidth_append_append_append_eq_shiftLeft_setWidth_or, wordOfBytes]
  rw [← hor, BitVec.setWidth_eq]

/-- A byte appended at the low end is the next digit to base 256. -/
theorem toNat_append_byte {n : Nat} (x : BitVec n) (b : Byte) : (x ++ b).toNat = x.toNat * 2 ^ 8 + b.toNat := by
  rw [BitVec.toNat_append, ← Nat.shiftLeft_add_eq_or_of_lt b.isLt, Nat.shiftLeft_eq]

theorem toNat_wordOfBytes (b0 b1 b2 b3 : Byte) :
    (wordOfBytes b0 b1 b2 b3).toNat = b0.toNat * 2 ^ 24 + b1.toNat * 2 ^ 16 + b2.toNat * 2 ^ 8 + b3.toNat := by
  rw [wordOfBytes_eq_append, toNat_append_byte, toNat_append_byte, toNat_append_byte]
  omega

theorem getD_blockWords (block : List Byte) {j : Nat} (hj : j < 16) :
    (blockWords block).getD j 0 = wordOfBytes (block.getD (4 * j) 0) (block.getD (4 * j + 1) 0)
      (block.getD (4 * j + 2) 0) (block.getD (4 * j + 3) 0) := by
  simp [blockWords, hj]

/-- R33's example, "abc" and the padding's first byte. -/
theorem getD_zero_blockWords_abc (rest : List Byte) :
    (blockWords (0x61#8 :: 0x62#8 :: 0x63#8 :: 0x80#8 :: rest)).getD 0 0 = 0x61626380#32 := by
  have hword : wordOfBytes 0x61#8 0x62#8 0x63#8 0x80#8 = 0x61626380#32 := by decide
  exact (getD_blockWords _ (by decide)).trans hword

/-! ### The length field's bytes (R34) -/

theorem getD_lenBytes (L : Length) {k : Nat} (hk : k < 8) :
    (lenBytes L).getD k 0 = L.extractLsb' (56 - 8 * k) 8 := by
  simp [lenBytes, hk]

/-- Below the quotient by `2 ^ (m + 8)`, the byte at bit `m` is the next digit to base 256. -/
theorem div_add_toNat_extractLsb'_byte (L : Length) (m : Nat) :
    256 * (L.toNat / 2 ^ (m + 8)) + (L.extractLsb' m 8).toNat = L.toNat / 2 ^ m := by
  rw [BitVec.extractLsb'_toNat, Nat.shiftRight_eq_div_pow, Nat.pow_add, ← Nat.div_div_eq_div_mul]
  exact Nat.div_add_mod _ _

/-- Read big-endian, the first `n` bytes are the length's top `8 * n` bits. -/
theorem foldl_take_lenBytes (L : Length) {n : Nat} (hn : n ≤ 8) :
    ((lenBytes L).take n).foldl (fun acc b => 256 * acc + b.toNat) 0 = L.toNat / 2 ^ (64 - 8 * n) := by
  induction n with
  | zero => exact (Nat.div_eq_of_lt L.isLt).symm
  | succ n ih =>
    have hlen : n < (lenBytes L).length := hn
    have hpos : 64 - 8 * n = 56 - 8 * n + 8 := by omega
    have hnext : 64 - 8 * (n + 1) = 56 - 8 * n := by omega
    rw [List.take_succ_eq_append_getElem hlen, List.foldl_concat, ih (by omega), ← List.getD_eq_getElem _ 0 hlen,
      getD_lenBytes L hn, hpos, hnext, div_add_toNat_extractLsb'_byte]

/-! ### The digest's first word (R35) -/

theorem take_four_digestBytes (h : Words8) : (digestBytes h).take 4 = wordBytes h.w0 := rfl

/-! ### The statements -/

/-- Settles O27: word `j` is `wordOfBytes` of its four bytes, which is their append. -/
theorem blockWordsAreBigEndian : Obligations.BlockWordsAreBigEndian :=
  ⟨fun block _ => ⟨length_blockWords block, fun _ hj => by rw [getD_blockWords block hj, toNat_wordOfBytes]⟩,
    getD_zero_blockWords_abc⟩

/-- Settles O28: the eight bytes, read big-endian, are the length divided by `2 ^ 0`. -/
theorem lenBytesAreBigEndian : Obligations.LenBytesAreBigEndian := by
  refine ⟨fun L => ⟨length_lenBytes L, fun _ hk => getD_lenBytes L hk, ?_⟩, by decide⟩
  have hall := foldl_take_lenBytes L (n := 8) (by decide)
  rwa [List.take_of_length_le (by simp), Nat.sub_self, Nat.pow_zero, Nat.div_one] at hall

/-- Settles O29: each word gives its four bytes in order, the most significant first. -/
theorem digestBytesAreBigEndian : Obligations.DigestBytesAreBigEndian := by
  refine ⟨fun h => ⟨length_digestBytes h, fun i _ _ hj => getD_digestBytes h i hj⟩, fun h h0 => ?_⟩
  rw [take_four_digestBytes, h0]
  decide

end Sys2Proof.Machine

/-! SUPPORT. The statements of 30_encoding.md on the decoder (R51, R54) and the pseudo-commands (R56), with the lemmas
they need. -/

namespace Sys2Proof.Machine

/-! ### A word and its fields (R45) -/

/-- OP and RSV make up the word's high byte. -/
theorem op_append_rsv_ofWord (w : CmdBits) :
    (CmdFields.ofWord w).op ++ (CmdFields.ofWord w).rsv = w.extractLsb' 8 8 :=
  BitVec.extractLsb'_append_extractLsb'_eq_extractLsb' rfl

/-- The fields leave out no bit of the word. -/
theorem toWord_ofWord (w : CmdBits) : (CmdFields.ofWord w).toWord = w := by
  rw [CmdFields.toWord, op_append_rsv_ofWord]
  exact BitVec.extractLsb'_append_extractLsb'

theorem ofWord_injective : Function.Injective CmdFields.ofWord := Function.LeftInverse.injective toWord_ofWord

/-- INIT's word, told by its fields (R47). -/
theorem ofWord_eq_init_iff (w : CmdBits) : CmdFields.ofWord w = ⟨1, 0, 0⟩ ↔ w = 0x1000#16 :=
  ofWord_injective.eq_iff' rfl

/-- FINAL's word, told by its fields (R49). -/
theorem ofWord_eq_final_iff (w : CmdBits) : CmdFields.ofWord w = ⟨3, 0, 0⟩ ↔ w = 0x3000#16 :=
  ofWord_injective.eq_iff' rfl

/-- The words of UPDATE, told by their high byte (R48). -/
theorem ofWord_eq_update_iff (w : CmdBits) :
    CmdFields.ofWord w = ⟨2, 0, w.extractLsb' 0 8⟩ ↔ w.extractLsb' 8 8 = 0x20#8 := by
  have hbyte : ∀ op rsv : BitVec 4, op ++ rsv = 0x20#8 ↔ op = 2 ∧ rsv = 0 := by decide
  rw [← op_append_rsv_ofWord, hbyte]
  simp [CmdFields.ofWord]

/-! ### The legal fields (R46, R51) -/

theorem legal_iff (c : CmdFields) : c.legal = true ↔ c = ⟨1, 0, 0⟩ ∨ c = ⟨2, 0, c.data⟩ ∨ c = ⟨3, 0, 0⟩ := by
  obtain ⟨op, rsv, data⟩ := c
  simp only [CmdFields.legal, Bool.and_eq_true, Bool.or_eq_true, beq_iff_eq, CmdFields.mk.injEq]
  tauto

/-- R51's three conditions: fields are not legal just when one of them holds. -/
theorem legal_eq_false_iff (c : CmdFields) :
    c.legal = false ↔ (c.op = 0 ∨ 4 ≤ c.op.toNat) ∨ c.rsv ≠ 0 ∨ ((c.op = 1 ∨ c.op = 3) ∧ c.data ≠ 0) := by
  have hop : ∀ op : BitVec 4, (op = 0 ∨ 4 ≤ op.toNat) ↔ op ≠ 2 ∧ op ≠ 1 ∧ op ≠ 3 := by decide
  have htwo : c.op = 2 → c.op ≠ 1 ∧ c.op ≠ 3 := fun h => by rw [h]; decide
  simp only [CmdFields.legal, Bool.and_eq_false_iff, Bool.or_eq_false_iff, beq_eq_false_iff_ne, hop]
  tauto

/-- The legal words are those of R47 to R49. -/
theorem legal_ofWord_iff (w : CmdBits) :
    (CmdFields.ofWord w).legal = true ↔ w = 0x1000#16 ∨ w.extractLsb' 8 8 = 0x20#8 ∨ w = 0x3000#16 := by
  rw [legal_iff, ofWord_eq_init_iff, ofWord_eq_final_iff, ← ofWord_eq_update_iff]
  rfl

/-! ### What the decoder answers (R54) -/

theorem decode_init {w : CmdBits} (h : CmdFields.ofWord w = ⟨1, 0, 0⟩) : decode w = .ok .init := by
  rw [decode, h]
  rfl

theorem decode_update {w : CmdBits} {b : Byte} (h : CmdFields.ofWord w = ⟨2, 0, b⟩) :
    decode w = .ok (.update b) := by
  rw [decode, h]
  rfl

theorem decode_final {w : CmdBits} (h : CmdFields.ofWord w = ⟨3, 0, 0⟩) : decode w = .ok .final := by
  rw [decode, h]
  rfl

/-- The decoder refuses the words whose fields are not legal, and no other: its branches are the cases of `legal`. -/
theorem decode_error_iff (w : CmdBits) : (∃ r, decode w = .error r) ↔ (CmdFields.ofWord w).legal = false := by
  simp only [decode, CmdFields.legal]
  split_ifs <;> simp_all

theorem isNone_toOption_decode_iff (w : CmdBits) :
    (decode w).toOption.isNone = true ↔ (CmdFields.ofWord w).legal = false := by
  rw [← decode_error_iff]
  cases decode w <;> simp [Except.toOption]

/-! ### The number of illegal words (R51) -/

/-- The words of R47 to R49, as numbers. -/
def legalWords : Finset Nat := {0x1000, 0x3000} ∪ Finset.Ico 0x2000 0x2100

theorem mem_legalWords {n : Nat} : n ∈ legalWords ↔ n = 0x1000 ∨ n = 0x3000 ∨ 0x2000 ≤ n ∧ n < 0x2100 := by
  simp [legalWords]

theorem legalWords_subset_range : legalWords ⊆ Finset.range 65536 := fun n hn => by
  rw [mem_legalWords] at hn
  rw [Finset.mem_range]
  omega

theorem card_legalWords : legalWords.card = 258 := by
  have hdisj : Disjoint ({0x1000, 0x3000} : Finset Nat) (Finset.Ico 0x2000 0x2100) := by simp
  rw [legalWords, Finset.card_union_of_disjoint hdisj, Finset.card_pair (by decide), Nat.card_Ico]

theorem legal_ofNat_iff {n : Nat} (hn : n < 65536) :
    (CmdFields.ofWord (BitVec.ofNat 16 n)).legal = true ↔ n ∈ legalWords := by
  have hhigh : n >>> 8 = n / 256 := Nat.shiftRight_eq_div_pow n 8
  simp only [legal_ofWord_iff, mem_legalWords, ← BitVec.toNat_inj, BitVec.extractLsb'_toNat, BitVec.toNat_ofNat,
    Nat.mod_eq_of_lt hn, hhigh]
  omega

theorem countP_illegal :
    ((List.range 65536).countP fun n => (decode (BitVec.ofNat 16 n)).toOption.isNone) = 65278 :=
  calc (List.range 65536).countP (fun n => (decode (BitVec.ofNat 16 n)).toOption.isNone)
      = Nat.count (· ∉ legalWords) 65536 := List.countP_congr fun n hn => by
        rw [isNone_toOption_decode_iff, ← Bool.not_eq_true, legal_ofNat_iff (List.mem_range.1 hn), decide_eq_true_iff]
    _ = (Finset.range 65536 \ legalWords).card := by rw [Nat.count_eq_card_filter_range, Finset.sdiff_eq_filter]
    _ = 65278 := by rw [Finset.card_sdiff_of_subset legalWords_subset_range, Finset.card_range, card_legalWords]

/-! ### The pseudo-commands (R56) -/

theorem expandLine?_of_wf {l : AsmLine} (h : l.wf = true) : expandLine? l = some (lineCommands l) := if_pos h

/-- HASH stands for the commands of one hash of the text's bytes (R65). -/
theorem lineCommands_hash (text : List Char) :
    lineCommands (.hash text) = hashCommands (text.map fun c => BitVec.ofNat 8 c.toNat) := by
  rw [lineCommands, hashCommands, textUpdates, List.map_map]
  rfl

/-! ### The statements -/

/-- Settles O4: the decoder's errors are the fields that are not legal, 258 numbers below 65,536 are legal words, and the
step takes the error. -/
theorem illegalWordsAreThoseOfTheRule : Obligations.IllegalWordsAreThoseOfTheRule := by
  refine ⟨fun w => (decode_error_iff w).trans (legal_eq_false_iff _), countP_illegal, ?_⟩
  intro s p w rest r hp hs hr
  rw [step_command hs (event_present w) hp, accept, hr]
  rfl

/-- Settles O2: a word that passes one of R54's tests has that command's fields, and one that passes none is not legal. -/
theorem decodeIsTheRulesChain : Obligations.DecodeIsTheRulesChain := by
  intro w
  split_ifs with hi hu hf
  · rw [decode_init ((ofWord_eq_init_iff w).2 hi)]
    rfl
  · rw [decode_update ((ofWord_eq_update_iff w).2 hu)]
    rfl
  · rw [decode_final ((ofWord_eq_final_iff w).2 hf)]
    rfl
  · rw [← Option.isNone_iff_eq_none, isNone_toOption_decode_iff, ← Bool.not_eq_true, legal_ofWord_iff]
    exact not_or.2 ⟨hi, not_or.2 ⟨hu, hf⟩⟩

/-- Settles O49: a well-formed line stands for its commands, and a concatenation for the concatenated commands. -/
theorem pseudoCommandsExpand : Obligations.PseudoCommandsExpand := by
  refine ⟨fun os h => expandLine?_of_wf h, fun text h => ?_, fun xs ys => List.map_append⟩
  have hstr : (AsmLine.updateStr text).wf = true := h
  have hhash : (AsmLine.hash text).wf = true := h
  exact ⟨expandLine?_of_wf hstr, by rw [expandLine?_of_wf hhash, lineCommands_hash]⟩

end Sys2Proof.Machine

/-! SUPPORT. The statements of 40_commands.md on UPDATE (R61, R62), FINAL (R63) and leaving DONE (R64), with the lemmas they
need. -/

namespace Sys2Proof.Machine

/-! ### Reading the buffer (R31, R32) -/

theorem get?_of_bufRead {i : Nat} {m : Memory} {v : Byte} (h : bufRead i m = .ok v) : Memory.get? m i = some v := by
  unfold bufRead at h
  split at h
  · exact held_ok h
  · simp at h

theorem bufRead_set_self {i : Nat} (hi : i < 64) (v : Byte) (m : Memory) : bufRead i (Memory.set m i v) = .ok v :=
  bufRead_ok hi (get?_set_self m i v)

theorem bufRead_set_of_ne {i a : Nat} (ha : a ≠ i) (v : Byte) (m : Memory) :
    bufRead a (Memory.set m i v) = bufRead a m := by
  rw [bufRead, bufRead, get?_set_of_ne m v ha]

theorem bufRead_nil {i : Nat} (hi : i < 64) : bufRead i [] = .error (.absentField (.buffer i)) := if_pos hi

/-- Storing the rest of a block after the bytes that are there completes the block. -/
theorem bufBlock_setAll {M vs : List Byte} {m : Memory} (hl : M.length + vs.length = 64)
    (hM : ∀ i < M.length, bufRead i m = .ok (M.getD i 0)) :
    bufBlock (Memory.setAll m M.length vs) = .ok (M ++ vs) := by
  refine bufBlock_ok (by rw [List.length_append, hl]) fun j hj => ?_
  rw [get?_setAll]
  by_cases hlt : j < M.length
  · rw [if_neg (by omega), get?_of_bufRead (hM j hlt), List.getElem?_append_left hlt, List.getD_eq_getElem _ _ hlt,
      List.getElem?_eq_getElem hlt]
  · rw [if_pos (by omega), List.getElem?_append_right (by omega)]

/-! ### A command outside ACTIVE (R101) -/

theorem whenActive_outside {s : State} (hp : s.phase = some .uninit ∨ s.phase = some .done)
    (effect : State → Except Fault State) : whenActive effect s = takeError .seqError s := by
  rcases hp with hp | hp <;> rw [whenActive, hp]

/-- UPDATE and FINAL raise SeqError in UNINIT and DONE. -/
theorem exec_outside {i : Instr} {s : State} (hi : i ≠ .init) (hp : s.phase = some .uninit ∨ s.phase = some .done) :
    exec i s = .next { s with errSeq := some true } := by
  cases i with
  | init => exact absurd rfl hi
  | update b => exact whenActive_outside hp _
  | final => exact whenActive_outside hp _

/-! ### UPDATE in ACTIVE (R61, R62) -/

theorem exec_update_active {s : State} (hp : s.phase = some .active) (b : Byte) :
    exec (.update b) s = answer (s.append b) :=
  whenActive_active hp _

/-- An UPDATE that leaves room in the block only appends its byte. -/
theorem exec_update_of_lt {s : State} {n : Nat} (hp : s.phase = some .active) (hn : s.bufferedLen = some n) (hlt : n < 63)
    (b : Byte) : exec (.update b) s = .next (s.appended n b) := by
  rw [exec_update_active hp, append_eq hn (by omega), if_neg (by omega), answer_ok]

/-- The 64th byte completes the block, which is flushed. -/
theorem exec_update_flush {s : State} {pre : List Byte} {h : Words8} {bits : Length} (hp : s.phase = some .active)
    (hn : s.bufferedLen = some 63) (hl : pre.length = 63) (hpre : ∀ i < 63, bufRead i s.buffer = .ok (pre.getD i 0))
    (hs : s.digestState = some h) (ht : s.totalBits = some bits) (b : Byte) :
    exec (.update b) s = .next { s.appended 63 b with
      digestState := some (compress h (pre ++ [b])), work := none
      totalBits := some (bits + 512#64), bufferedLen := some 0 } := by
  have hblock : bufBlock (s.appended 63 b).buffer = .ok (pre ++ [b]) := by
    have hset := bufBlock_setAll (M := pre) (vs := [b]) (m := s.buffer) (by simp [hl]) (by rwa [hl])
    rwa [hl] at hset
  rw [exec_update_active hp, append_eq hn (by decide), if_pos rfl, flush_of hblock hs ht, answer_ok]

theorem add_512_eq_ofNat (bits : Length) : bits + 512#64 = BitVec.ofNat 64 (bits.toNat + 512) := by
  rw [BitVec.ofNat_add, BitVec.ofNat_toNat, BitVec.setWidth_eq]

/-! ### The final blocks (R70 to R76) -/

theorem lengthField_eq_ofNat (bits : Length) (p : Nat) :
    lengthField bits p = BitVec.ofNat 64 (bits.toNat + 8 * p) := by
  rw [BitVec.ofNat_add, BitVec.ofNat_mul, BitVec.ofNat_toNat, BitVec.setWidth_eq]
  rfl

/-- FINAL's first writes run to the end of the buffer. -/
theorem length_padTail {p : Nat} (hp : p < 64) (L : Length) : p + (padTail p L).length = 64 := by
  by_cases h1 : p + 1 ≤ 56 <;> simp [padTail, oneBlock, h1] <;> omega

theorem length_lengthBlock (L : Length) : (lengthBlock L).length = 64 := rfl

/-- `PadBlocks` by what FINAL writes: the bytes from `p` to 63, and a second block when the length does not fit. -/
theorem padBlocks_eq (M : List Byte) (L : Length) :
    padBlocks M L = if oneBlock M.length then [M ++ padTail M.length L] else [M ++ padTail M.length L, lengthBlock L] := by
  have hone : oneBlock M.length = decide (M.length ≤ 55) := decide_eq_decide.2 Nat.succ_le_succ_iff
  by_cases h1 : M.length ≤ 55 <;> simp [padBlocks, padTail, lengthBlock, hone, h1]

/-- The blocks FINAL builds in the buffer are those of `PadBlocks`, whatever the buffer held above its bytes. -/
theorem finalBlocks_eq_padBlocks {M : List Byte} {m : Memory} (hlt : M.length < 64)
    (hM : ∀ i < M.length, bufRead i m = .ok (M.getD i 0)) (L : Length) :
    finalBlocks M.length L m = .ok (padBlocks M L) := by
  have htail := length_padTail hlt L
  have hfirst := bufBlock_setAll htail hM
  have hsecond : bufBlock (Memory.setAll (Memory.setAll m M.length (padTail M.length L)) 0 (lengthBlock L)) =
      .ok (lengthBlock L) :=
    bufBlock_setAll (M := []) (length_lengthBlock L) (by simp)
  rw [finalBlocks, bufWriteAll_ok htail.le, ok_bind, hfirst, ok_bind, padBlocks_eq]
  split
  · rfl
  · rw [bufWriteAll_ok (by simp [length_lengthBlock]), ok_bind, hsecond, ok_bind]

/-! ### FINAL in ACTIVE (R63) -/

theorem exec_final_active {s : State} (hp : s.phase = some .active) : exec .final s = answer s.finish :=
  whenActive_active hp _

/-- FINAL folds the padded blocks into `H`, and presents it in DONE. -/
theorem exec_final_eq {s : State} {M : List Byte} {h : Words8} {bits : Length} (hp : s.phase = some .active)
    (hn : s.bufferedLen = some M.length) (hlt : M.length < 64) (hM : ∀ i < M.length, bufRead i s.buffer = .ok (M.getD i 0))
    (hs : s.digestState = some h) (ht : s.totalBits = some bits) :
    exec .final s = .next { s with
      buffer := [], bufferedLen := none, totalBits := none, phase := some .done, work := none
      digestState := some ((padBlocks M (BitVec.ofNat 64 (bits.toNat + 8 * M.length))).foldl compress h) } := by
  have hblocks := finalBlocks_eq_padBlocks hlt hM (lengthField bits M.length)
  obtain ⟨block, blocks, hpad⟩ := finalBlocks_ok hblocks
  rw [exec_final_active hp, finish_of hn ht hs (hblocks.trans (congrArg _ hpad)), answer_ok, ← lengthField_eq_ofNat, hpad]

theorem digest_done {s : State} (hp : s.phase = some .done) : s.digest = s.digestState.map digestBytes := if_pos hp

/-- STATUS in DONE when no error was raised (R25). -/
theorem statusWord_done {s : State} (hp : s.phase = some .done) (hq : s.errSeq = some false) (hi : s.errIll = some false) :
    s.statusWord = some 0x0002#16 := by
  rw [State.statusWord, hp, hq, hi]
  rfl

/-! ### The compressions of the rules' examples -/

/-- R62's example, a full block of 0x61. -/
theorem compress_iv_replicate_0x61 : compress iv (List.replicate 64 0x61#8) =
    ⟨0xdf5bb81c#32, 0xe81e0626#32, 0xfb45a894#32, 0x4fd40f31#32, 0xb25e6816#32, 0xd6d499c1#32, 0xab904929#32,
     0x00635e66#32⟩ := by decide +kernel

/-- R63's example, the final block of "abc". -/
theorem compress_iv_abcBlock : compress iv abcBlock =
    ⟨0xba7816bf#32, 0x8f01cfea#32, 0x414140de#32, 0x5dae2223#32, 0xb00361a3#32, 0x96177a9c#32, 0xb410ff61#32,
     0xf20015ad#32⟩ := by decide +kernel

/-! ### Leaving DONE (R64) -/

theorem rst_of_event_reset {e : PortEdge} (h : e.event = .reset) : e.rst = true := by
  by_contra hr
  rw [PortEdge.event, if_neg hr] at h
  split at h <;> cases h

/-- A command that takes the engine out of DONE is INIT. -/
theorem eq_init_of_exec_leaves_done {i : Instr} {s t : State} (hp : s.phase = some .done) (h : exec i s = .next t)
    (ht : t.phase ≠ some .done) : i = .init := by
  obtain ⟨hi, -⟩ | ⟨-, -, htp⟩ | ⟨-, -, htp⟩ := exec_phase h
  · exact hi
  · exact absurd htp ht
  · exact absurd (htp.trans hp) ht

/-- A step that takes the engine out of DONE is a reset or an INIT. -/
theorem step_leaves_done {s t : State} (hp : s.phase = some .done) (h : step s = .next t) (ht : t.phase ≠ some .done) :
    ∃ e rest, s.edges = e :: rest ∧ (e.rst = true ∨ ∃ w, e.event = .command w ∧ decode w = .ok .init) := by
  obtain ⟨-, rfl⟩ | ⟨e, rest, hs, ⟨he, -⟩ | ⟨-, rfl⟩ | ⟨w, he, -, ⟨r, -, rfl⟩ | ⟨i, hd, hx⟩⟩⟩ := step_next h
  · exact absurd hp ht
  · exact ⟨e, rest, hs, .inl (rst_of_event_reset he)⟩
  · exact absurd hp ht
  · exact absurd ((setErrorFlag_phase _ { s with edges := rest }).trans hp) ht
  · obtain rfl : i = .init := eq_init_of_exec_leaves_done (s := { s with edges := rest }) hp hx ht
    exact ⟨e, rest, hs, .inr ⟨w, he, hd⟩⟩

/-! ### The statements -/

/-- Settles O15: below 63 the byte is only appended; the 64th completes the block that the flush compresses. -/
theorem updateAppendsOrFlushes : Obligations.UpdateAppendsOrFlushes := by
  refine ⟨fun s b hp => exec_outside (by simp) hp, fun s b n hp hn hlt => ?_, fun s b pre h bits hp hn hl hpre hs ht => ?_,
    compress_iv_replicate_0x61⟩
  · exact ⟨Memory.set s.buffer n b, exec_update_of_lt hp hn hlt b, bufRead_set_self (by omega) b _,
      fun a ha => bufRead_set_of_ne ha b _⟩
  · refine ⟨Memory.set s.buffer 63 b, ?_, bufRead_set_self (by decide) b _, fun a ha => bufRead_set_of_ne ha b _⟩
    rw [exec_update_flush hp hn hl hpre hs ht, add_512_eq_ofNat]
    rfl

/-- Settles O16: the blocks FINAL builds in the buffer are those of `PadBlocks`, and `H` is folded over them. -/
theorem finalPadsAndCompresses : Obligations.FinalPadsAndCompresses := by
  refine ⟨fun s hp => exec_outside (by simp) hp, fun s M h bits hp hn hlt hM hs ht => ?_, rfl,
    congrArg digestBytes compress_iv_abcBlock⟩
  exact ⟨_, exec_final_eq hp hn hlt hM hs ht, rfl, fun i hi => bufRead_nil hi, digest_done rfl,
    fun hq hi => statusWord_done rfl hq hi⟩

/-- Settles O18: FINAL's effect is `finish`, the errors leave DONE alone, and a step's cases leave it by a reset or INIT. -/
theorem onlyInitOrResetLeavesDone : Obligations.OnlyInitOrResetLeavesDone := by
  refine ⟨fun s t hp h => ?_, fun s i hp hi => exec_outside hi (.inr hp), fun s t hp h ht => step_leaves_done hp h ht⟩
  obtain ⟨hi, -⟩ | ⟨b, hi, -⟩ | ⟨-, -, hf⟩ | ⟨-, hout, -⟩ := exec_next h
  · cases hi
  · cases hi
  · obtain ⟨p, bits, block, blocks, hw, -, -, -, -, rfl⟩ := finish_ok hf
    exact ⟨rfl, ⟨_, rfl, digest_done rfl⟩, rfl, rfl, rfl⟩
  · simp [hp] at hout

end Sys2Proof.Machine

/-! SUPPORT. The statements of 42_message_schedule.md on the rotations and shifts (R80, R81), the sigma functions (R82, R83
and 43_compression.md's R92, R93) and the expansion (R84, R85), with the lemmas they need. -/

namespace Sys2Proof.Machine

/-! ### Rotation and shift, bit by bit (R80, R81) -/

/-- R80's shift formula is the library's rotation. -/
theorem rotr_eq_rotateRight (x : Word) {n : Nat} (hn : n ≤ 31) : rotr x n = x.rotateRight n := by
  rw [BitVec.rotateRight_def, Nat.mod_eq_of_lt (by omega), rotr]

theorem getLsbD_rotr (x : Word) {n i : Nat} (hn : n ≤ 31) (hi : i < 32) :
    (rotr x n).getLsbD i = x.getLsbD ((i + n) % 32) := by
  rw [rotr_eq_rotateRight x hn, BitVec.getLsbD_rotateRight, Nat.mod_eq_of_lt (show n < 32 by omega)]
  by_cases hwrap : i < 32 - n
  · have hpos : (i + n) % 32 = n + i := by omega
    rw [decide_eq_true hwrap, cond_true, hpos]
  · have hpos : (i + n) % 32 = i - (32 - n) := by omega
    rw [decide_eq_false hwrap, cond_false, decide_eq_true hi, Bool.true_and, hpos]

theorem getLsbD_shr (x : Word) (n i : Nat) :
    (shr x n).getLsbD i = (decide (i + n ≤ 31) && x.getLsbD (i + n)) := by
  rw [shr, BitVec.getLsbD_ushiftRight, Nat.add_comm n i]
  by_cases hin : i + n ≤ 31
  · rw [decide_eq_true hin, Bool.true_and]
  · rw [decide_eq_false hin, Bool.false_and, x.getLsbD_of_ge _ (by omega)]

/-! ### The sigma functions, bit by bit (R82, R83, R92, R93) -/

/-- Two rotations and a shift, as in R82 and R83. -/
theorem getLsbD_rotr_xor_rotr_xor_shr (x : Word) {a b c i : Nat} (ha : a ≤ 31) (hb : b ≤ 31) (hi : i < 32) :
    (rotr x a ^^^ rotr x b ^^^ shr x c).getLsbD i =
      (x.getLsbD ((i + a) % 32) ^^ x.getLsbD ((i + b) % 32) ^^ (decide (i + c ≤ 31) && x.getLsbD (i + c))) := by
  rw [BitVec.getLsbD_xor, BitVec.getLsbD_xor, getLsbD_rotr x ha hi, getLsbD_rotr x hb hi, getLsbD_shr]

/-- Three rotations, as in R92 and R93. -/
theorem getLsbD_rotr_xor_rotr_xor_rotr (x : Word) {a b c i : Nat} (ha : a ≤ 31) (hb : b ≤ 31) (hc : c ≤ 31) (hi : i < 32) :
    (rotr x a ^^^ rotr x b ^^^ rotr x c).getLsbD i =
      (x.getLsbD ((i + a) % 32) ^^ x.getLsbD ((i + b) % 32) ^^ x.getLsbD ((i + c) % 32)) := by
  rw [BitVec.getLsbD_xor, BitVec.getLsbD_xor, getLsbD_rotr x ha hi, getLsbD_rotr x hb hi, getLsbD_rotr x hc hi]

/-! ### The expansion (R84 to R86) -/

/-- Expanding only appends: a word, once computed, stays. -/
theorem prefix_expand (n : Nat) (W : List Word) : W <+: expand n W := by
  induction n generalizing W with
  | zero => exact List.prefix_rfl
  | succ n ih => exact (List.prefix_append W _).trans (ih _)

theorem length_expand (n : Nat) (W : List Word) : (expand n W).length = W.length + n := by
  induction n generalizing W with
  | zero => rfl
  | succ n ih => rw [expand, ih, List.length_append, List.length_singleton, Nat.add_assoc, Nat.add_comm 1 n]

theorem take_expand (n : Nat) (W : List Word) : (expand n W).take W.length = W :=
  (List.prefix_iff_eq_take.1 (prefix_expand n W)).symm

theorem getD_expand_of_lt (n : Nat) {W : List Word} {i : Nat} (hi : i < W.length) :
    (expand n W).getD i 0 = W.getD i 0 := by
  obtain ⟨V, hV⟩ := prefix_expand n W
  rw [← hV, List.getD_append _ _ _ _ hi]

/-- Each appended word is the `nextWord` of all the words before it. -/
theorem getD_expand_eq_nextWord_take {n i : Nat} {W : List Word} (hW : W.length ≤ i) (hi : i < W.length + n) :
    (expand n W).getD i 0 = nextWord ((expand n W).take i) := by
  induction n generalizing W with
  | zero => omega
  | succ n ih =>
    have hlen : (W ++ [nextWord W]).length = W.length + 1 := List.length_append
    obtain rfl | hlt := hW.eq_or_lt
    · rw [take_expand, expand, getD_expand_of_lt n (by omega), List.getD_append_right _ _ _ _ le_rfl, Nat.sub_self]
      rfl
    · exact ih (by omega) (by omega)

theorem getD_take_of_lt (W : List Word) {i j : Nat} (hj : j < i) : (W.take i).getD j 0 = W.getD j 0 := by
  rw [List.getD_eq_getElem?_getD, List.getElem?_take_of_lt hj, ← List.getD_eq_getElem?_getD]

/-- R85's right-hand side reads only words below `i`. -/
theorem nextWord_take {W : List Word} {i : Nat} (h16 : 16 ≤ i) (hi : i ≤ W.length) :
    nextWord (W.take i) =
      lowerSigma1 (W.getD (i - 2) 0) + W.getD (i - 7) 0 + lowerSigma0 (W.getD (i - 15) 0) + W.getD (i - 16) 0 := by
  simp only [nextWord, List.length_take_of_le hi]
  have hbefore {k : Nat} (hk : 0 < k) : (W.take i).getD (i - k) 0 = W.getD (i - k) 0 := getD_take_of_lt W (by omega)
  rw [hbefore (by decide), hbefore (by decide), hbefore (by decide), hbefore (by decide)]

@[simp] theorem length_schedule (block : List Byte) : (schedule block).length = 64 := length_expand 48 (blockWords block)

/-! ### The statements -/

/-- Settles O33: the lower sigmas are two rotations and a shift, the upper ones three rotations. -/
theorem sigmaFunctionsXorThreeBits : Obligations.SigmaFunctionsXorThreeBits := by
  refine ⟨fun x i hi => ⟨?_, ?_, ?_, ?_⟩, by decide, by decide, by decide, by decide⟩
  · exact getLsbD_rotr_xor_rotr_xor_shr x (by decide) (by decide) hi
  · exact getLsbD_rotr_xor_rotr_xor_shr x (by decide) (by decide) hi
  · exact getLsbD_rotr_xor_rotr_xor_rotr x (by decide) (by decide) (by decide) hi
  · exact getLsbD_rotr_xor_rotr_xor_rotr x (by decide) (by decide) (by decide) hi

/-- Settles O35: expanding leaves the block's words in place, and each word it appends is `nextWord` of those before. -/
theorem scheduleRecurrence : Obligations.ScheduleRecurrence := by
  refine ⟨fun block _ => ⟨length_schedule block, fun j hj => getD_expand_of_lt 48 hj, fun i h16 hi => ?_⟩, by decide⟩
  have hnext : (schedule block).getD i 0 = nextWord ((schedule block).take i) := getD_expand_eq_nextWord_take h16 hi
  rw [hnext, nextWord_take h16 (by rw [length_schedule]; exact hi.le)]

/-- Settles O32: the shift formula is the rotation of the library, whose bits wrap at `32 - n`. -/
theorem rotateAndShiftMoveBits : Obligations.RotateAndShiftMoveBits :=
  ⟨fun x n i _ hn hi => ⟨getLsbD_rotr x hn hi, rfl, getLsbD_shr x n i⟩, by decide, by decide, by decide⟩

end Sys2Proof.Machine

/-! SUPPORT. The statements of 43_compression.md on choose and majority (R90, R91) and the 64 rounds (R94, R95, R97), with
the lemmas they need. -/

namespace Sys2Proof.Machine

/-! ### Choose and majority, bit by bit (R90, R91) -/

theorem getLsbD_ch (x y z : Word) {i : Nat} (hi : i < 32) :
    (ch x y z).getLsbD i = if x.getLsbD i then y.getLsbD i else z.getLsbD i := by
  rw [ch, BitVec.getLsbD_xor, BitVec.getLsbD_and, BitVec.getLsbD_and, BitVec.getLsbD_not, decide_eq_true hi]
  cases x.getLsbD i with
  | true => simp
  | false => simp

/-- The exclusive or of the three conjunctions is the majority of the three bits. -/
theorem xor_and_eq_majority (a b c : Bool) :
    ((a && b) ^^ (a && c) ^^ (b && c)) = decide (2 ≤ a.toNat + b.toNat + c.toNat) := by
  revert a b c
  decide

theorem getLsbD_maj (x y z : Word) (i : Nat) :
    (maj x y z).getLsbD i = decide (2 ≤ (x.getLsbD i).toNat + (y.getLsbD i).toNat + (z.getLsbD i).toNat) := by
  rw [maj, BitVec.getLsbD_xor, BitVec.getLsbD_xor, BitVec.getLsbD_and, BitVec.getLsbD_and, BitVec.getLsbD_and,
    xor_and_eq_majority]

/-! ### The rounds (R95, R98) -/

/-- `run` takes the first round first; the last round of `n + 1` is the one after `n`. -/
theorem run_succ_eq_round_run (n : Nat) (x : Working) : x.run (n + 1) = (x.run n).round := by
  induction n generalizing x with
  | zero => rfl
  | succ n ih => exact ih x.round

@[simp] theorem run_W (n : Nat) (x : Working) : (x.run n).W = x.W := by
  induction n with
  | zero => rfl
  | succ n ih => rw [run_succ_eq_round_run]; exact ih

@[simp] theorem run_t (n : Nat) (x : Working) : (x.run n).t = x.t + n := by
  induction n with
  | zero => rfl
  | succ n ih => rw [run_succ_eq_round_run]; exact congrArg (· + 1) ih

/-- `T1` in the round after `t` rounds from the load: its constant is `K[t]` and its word `W[t]` of the block's schedule. -/
theorem t1_run_load (h : Words8) (block : List Byte) (t : Nat) :
    ((Working.load h block).run t).t1 =
      let r := ((Working.load h block).run t).regs
      r.w7 + upperSigma1 r.w4 + ch r.w4 r.w5 r.w6 + roundConstants.getD t 0 + (schedule block).getD t 0 := by
  have ht : ((Working.load h block).run t).t = t := (run_t t _).trans (Nat.zero_add t)
  have hW : ((Working.load h block).run t).W = schedule block := run_W t _
  rw [Working.t1, ht, hW]
  rfl

/-! ### The compressions and the round of the rules' examples -/

/-- R95's example, round 0 of the block of "abc". -/
theorem regs_round_load_iv_abcBlock : (Working.load iv abcBlock).round.regs =
    ⟨0x5d6aebcd#32, 0x6a09e667#32, 0xbb67ae85#32, 0x3c6ef372#32, 0xfa2a4622#32, 0x510e527f#32, 0x9b05688c#32,
     0x1f83d9ab#32⟩ := by decide +kernel

/-- R97's example, the padded block of the empty message. -/
theorem compress_iv_emptyMessage : compress iv (0x80#8 :: zeroBytes 63) =
    ⟨0xe3b0c442#32, 0x98fc1c14#32, 0x9afbf4c8#32, 0x996fb924#32, 0x27ae41e4#32, 0x649b934c#32, 0xa495991b#32,
     0x7852b855#32⟩ := by decide +kernel

/-! ### The statements -/

/-- Settles O36: `r t` are the registers after `t` rounds from the load, and one more round is R95's equations. -/
theorem compressRunsSixtyFourRounds : Obligations.CompressRunsSixtyFourRounds := by
  refine ⟨fun h block => ⟨fun t => ((Working.load h block).run t).regs, rfl, fun t _ T1 T2 hT1 hT2 => ?_, rfl⟩,
    fun s h block hs => compressBlock_of_some hs block, regs_round_load_iv_abcBlock, compress_iv_emptyMessage⟩
  have h1 : T1 = ((Working.load h block).run t).t1 := hT1.trans (t1_run_load h block t).symm
  have h2 : T2 = ((Working.load h block).run t).t2 := hT2
  rw [h1, h2]
  exact congrArg Working.regs (run_succ_eq_round_run t (Working.load h block))

/-- Settles O34: choose by the cases of `x`'s bit, majority by the eight cases of three bits. -/
theorem chooseAndMajorityBits : Obligations.ChooseAndMajorityBits :=
  ⟨fun x y z i hi => ⟨getLsbD_ch x y z hi, getLsbD_maj x y z i⟩, by decide, by decide, by decide, by decide, by decide,
    by decide⟩

end Sys2Proof.Machine

/-! SUPPORT. The statements of 60_exceptions.md on the two errors (R101 to R105), with the lemmas they need. -/

namespace Sys2Proof.Machine

/-! ### What raises an error is what takes it (R101 to R104) -/

theorem phaseError_some {s : State} {err : CmdError} (h : phaseError s = some err) :
    err = .seqError ∧ (s.phase = some .uninit ∨ s.phase = some .done) := by
  unfold phaseError at h
  split at h
  next => cases h
  next hp => exact ⟨(Option.some.inj h).symm, .inl hp⟩
  next => cases h
  next hp => exact ⟨(Option.some.inj h).symm, .inr hp⟩

theorem whenActive_of_phaseError {s : State} {err : CmdError} (h : phaseError s = some err)
    (effect : State → Except Fault State) : whenActive effect s = takeError err s := by
  obtain ⟨rfl, hp⟩ := phaseError_some h
  exact whenActive_outside hp effect

theorem exec_of_commandError {i : Instr} {s : State} {err : CmdError} (h : commandError i s = some err) :
    exec i s = takeError err s := by
  cases i with
  | init => cases h
  | update b => exact whenActive_of_phaseError h _
  | final => exact whenActive_of_phaseError h _

theorem accept_of_wordError {w : CmdBits} {s : State} {err : CmdError} (h : wordError w s = some err) :
    accept w s = takeError err s := by
  cases hd : decode w with
  | error r =>
    obtain rfl : CmdError.illegalCommand = err := by simpa [wordError, hd] using h
    simp only [accept, hd]
  | ok i =>
    simp only [wordError, hd] at h
    simpa only [accept, hd] using exec_of_commandError h

theorem commandError_of_ne_init {i : Instr} (hi : i ≠ .init) (s : State) : commandError i s = phaseError s := by
  cases i with
  | init => exact absurd rfl hi
  | update b => rfl
  | final => rfl

theorem commandError_outside {i : Instr} {s : State} (hi : i ≠ .init) (hp : s.phase = some .uninit ∨ s.phase = some .done) :
    commandError i s = some .seqError := by
  rw [commandError_of_ne_init hi, phaseError]
  rcases hp with hp | hp <;> rw [hp]

/-- After the first reset, a command raises SeqError outside ACTIVE unless it is INIT, and otherwise nothing. -/
theorem commandError_cases {s : State} {p : Phase} (hp : s.phase = some p) (i : Instr) :
    (i ≠ .init ∧ p ≠ .active ∧ commandError i s = some .seqError) ∨
    ((i = .init ∨ p = .active) ∧ commandError i s = none) := by
  by_cases hi : i = .init
  · exact .inr ⟨.inl hi, by rw [hi, commandError]⟩
  · cases p with
    | uninit => exact .inl ⟨hi, by decide, commandError_outside hi (.inl hp)⟩
    | active => exact .inr ⟨.inr rfl, by rw [commandError_of_ne_init hi, phaseError, hp]⟩
    | done => exact .inl ⟨hi, by decide, commandError_outside hi (.inr hp)⟩

/-- An error is raised by an accepted word only. -/
theorem raisedError_some {s : State} {e : PortEdge} {rest : List PortEdge} {err : CmdError} (hs : s.edges = e :: rest)
    (h : s.raisedError = some err) :
    ∃ w p, e.event = .command w ∧ s.phase = some p ∧ wordError w s = some err := by
  simp only [State.raisedError, hs, List.head?_cons, Option.bind_some] at h
  cases he : e.event with
  | reset => simp [he, eventError] at h
  | idle => simp [he, eventError] at h
  | unknown => simp [he, eventError] at h
  | command w =>
    simp only [he, eventError] at h
    obtain ⟨p, hp, hw⟩ := Option.bind_eq_some_iff.1 h
    exact ⟨w, p, rfl, hp, hw⟩

theorem raisedError_command {s : State} {e : PortEdge} {rest : List PortEdge} {w : CmdBits} {p : Phase}
    (hs : s.edges = e :: rest) (he : e.event = .command w) (hp : s.phase = some p) :
    s.raisedError = wordError w s := by
  simp [State.raisedError, hs, he, eventError, hp]

/-- A step at which an error is raised consumes its edge and sets the error's flag, and does nothing else (R103). -/
theorem step_of_raisedError {s : State} {e : PortEdge} {rest : List PortEdge} {err : CmdError} (hs : s.edges = e :: rest)
    (h : s.raisedError = some err) : step s = .next (State.setErrorFlag err { s with edges := rest }) := by
  obtain ⟨w, p, he, hp, hw⟩ := raisedError_some hs h
  rw [step_command hs he hp]
  exact accept_of_wordError (s := { s with edges := rest }) hw

theorem setErrorFlag_digest (err : CmdError) (s : State) : (s.setErrorFlag err).digest = s.digest := by
  simp only [State.digest, setErrorFlag_phase, setErrorFlag_digestState]

/-- No flag is cleared by setting one. -/
theorem setErrorFlag_keeps_set (err : CmdError) (s : State) :
    (s.errSeq = some true → (s.setErrorFlag err).errSeq = some true) ∧
    (s.errIll = some true → (s.setErrorFlag err).errIll = some true) := by
  cases err <;> simp

theorem cmdReady_of_rst_false {s : State} {p : Phase} (hp : s.phase = some p) (hr : s.rst = false) :
    s.cmdReady = some true := by
  simp [State.cmdReady, hr, hp]

/-! ### No command reads or writes the flags, unless it raises an error (R105) -/

section Flags

variable {s t : State} (q r : Option Bool)

theorem flush_with_flags (h : s.flush = .ok t) :
    State.flush { s with errSeq := q, errIll := r } = .ok { t with errSeq := q, errIll := r } := by
  obtain ⟨block, hw, bits, hb, hs, ht, rfl⟩ := flush_ok h
  exact flush_of (s := { s with errSeq := q, errIll := r }) hb hs ht

theorem append_with_flags {b : Byte} (h : s.append b = .ok t) :
    State.append b { s with errSeq := q, errIll := r } = .ok { t with errSeq := q, errIll := r } := by
  obtain ⟨n, hn, ⟨hlt, rfl⟩ | ⟨rfl, hf⟩⟩ := append_ok h
  · rw [append_eq (s := { s with errSeq := q, errIll := r }) hn (by omega), if_neg (by omega)]
    rfl
  · rw [append_eq (s := { s with errSeq := q, errIll := r }) hn (by decide), if_pos rfl]
    exact flush_with_flags q r hf

theorem finish_with_flags (h : s.finish = .ok t) :
    State.finish { s with errSeq := q, errIll := r } = .ok { t with errSeq := q, errIll := r } := by
  obtain ⟨p, bits, block, blocks, hw, hp, hb, hs, hbl, rfl⟩ := finish_ok h
  exact finish_of (s := { s with errSeq := q, errIll := r }) hp hb hs hbl

theorem exec_with_flags {i : Instr} (he : commandError i s = none) (h : exec i s = .next t) :
    exec i { s with errSeq := q, errIll := r } = .next { t with errSeq := q, errIll := r } := by
  obtain ⟨rfl, rfl⟩ | ⟨b, rfl, hp, ha⟩ | ⟨rfl, hp, hf⟩ | ⟨hi, hp, -⟩ := exec_next h
  · simp only [exec, execInit, initialise_eq, answer_ok, State.initialised]
  · rw [exec_update_active (s := { s with errSeq := q, errIll := r }) hp, append_with_flags q r ha, answer_ok]
  · rw [exec_final_active (s := { s with errSeq := q, errIll := r }) hp, finish_with_flags q r hf, answer_ok]
  · simp [commandError_outside hi hp] at he

end Flags

/-- A command that raises no error leaves the flags: it answers the same when they are written back. -/
theorem exec_keeps_flags {i : Instr} {s t : State} (he : commandError i s = none) (h : exec i s = .next t) :
    t.errSeq = s.errSeq ∧ t.errIll = s.errIll := by
  have hback : t = { t with errSeq := s.errSeq, errIll := s.errIll } :=
    Host.Outcome.next.inj (h.symm.trans (exec_with_flags s.errSeq s.errIll he h))
  have hq := congrArg State.errSeq hback
  have hi := congrArg State.errIll hback
  exact ⟨hq, hi⟩

/-- A step that raises no error and is no reset leaves the flags. -/
theorem step_keeps_flags {s t : State} (h : step s = .next t) (hr : s.rst = false) (he : s.raisedError = none) :
    t.errSeq = s.errSeq ∧ t.errIll = s.errIll := by
  obtain ⟨-, rfl⟩ | ⟨e, rest, hs, ⟨hev, -⟩ | ⟨-, rfl⟩ | ⟨w, hev, hsome, hx⟩⟩ := step_next h
  · exact ⟨rfl, rfl⟩
  · rw [State.rst, hs] at hr
    exact absurd (rst_of_event_reset hev) (by simp [hr])
  · exact ⟨rfl, rfl⟩
  · obtain ⟨p, hp⟩ := Option.isSome_iff_exists.1 hsome
    rw [raisedError_command hs hev hp] at he
    obtain ⟨r, hd, -⟩ | ⟨i, hd, hx⟩ := hx
    · simp [wordError, hd] at he
    · simp only [wordError, hd] at he
      exact exec_keeps_flags (s := { s with edges := rest }) he hx

/-- A set flag outlives every step that is no reset. -/
theorem step_keeps_set_flags {s t : State} (h : step s = .next t) (hr : s.rst = false) :
    (s.errSeq = some true → t.errSeq = some true) ∧ (s.errIll = some true → t.errIll = some true) := by
  cases he : s.raisedError with
  | none =>
    obtain ⟨hq, hi⟩ := step_keeps_flags h hr he
    exact ⟨hq.trans, hi.trans⟩
  | some err =>
    cases hs : s.edges with
    | nil => simp [State.raisedError, hs] at he
    | cons e rest =>
      obtain rfl := Host.Outcome.next.inj (h.symm.trans (step_of_raisedError hs he))
      exact setErrorFlag_keeps_set err { s with edges := rest }

/-! ### Decode first (R104) -/

theorem step_illegal {s : State} {p : Phase} {w : CmdBits} {rest : List PortEdge} {r : IllegalReason}
    (hp : s.phase = some p) (hs : s.edges = PortEdge.present w :: rest) (hd : decode w = .error r) :
    step s = .next { s with edges := rest, errIll := some true } := by
  refine step_of_raisedError hs (err := .illegalCommand) ?_
  simp [raisedError_command hs rfl hp, wordError, hd]

/-- A command edge is answered with a next state only after the first reset. -/
theorem phase_of_step_present {s t : State} {w : CmdBits} {rest : List PortEdge}
    (hs : s.edges = PortEdge.present w :: rest) (h : step s = .next t) : ∃ p, s.phase = some p := by
  cases hp : s.phase with
  | none => simp [step_cons hs, stepEvent, acceptIfReset, hp] at h
  | some p => exact ⟨p, rfl⟩

/-- A legal word leaves ERR_ILL, and sets ERR_SEQ when it is UPDATE or FINAL outside ACTIVE. -/
theorem step_legal_flags {s t : State} {w : CmdBits} {rest : List PortEdge} {i : Instr}
    (hs : s.edges = PortEdge.present w :: rest) (hd : decode w = .ok i) (h : step s = .next t) :
    t.errIll = s.errIll ∧
      ((i ≠ .init ∧ s.phase ≠ some .active ∧ t.errSeq = some true) ∨
       ((i = .init ∨ s.phase = some .active) ∧ t.errSeq = s.errSeq)) := by
  obtain ⟨p, hp⟩ := phase_of_step_present hs h
  have hraised : s.raisedError = commandError i s := by rw [raisedError_command hs rfl hp, wordError, hd]
  obtain ⟨hi, hna, he⟩ | ⟨hia, he⟩ := commandError_cases hp i
  · obtain rfl := Host.Outcome.next.inj (h.symm.trans (step_of_raisedError hs (hraised.trans he)))
    exact ⟨rfl, .inl ⟨hi, by simpa [hp] using hna, rfl⟩⟩
  · obtain ⟨hq, hill⟩ := step_keeps_flags h (by rw [State.rst, hs]; rfl) (hraised.trans he)
    exact ⟨hill, .inr ⟨by simpa [hp] using hia, hq⟩⟩

/-! ### The statements -/

/-- Settles O22: the step at which an error is raised is `setErrorFlag` on the state without the edge. -/
theorem errorsArePrecise : Obligations.ErrorsArePrecise := by
  intro s p e rest err hp hs he
  refine ⟨_, step_of_raisedError hs he, setErrorFlag_digest err _, ?_, ?_, cmdReady_of_rst_false (p := p) ?_⟩
  · rintro rfl; rfl
  · rintro rfl; rfl
  · rwa [setErrorFlag_phase]

/-- Settles O23: an illegal word raises IllegalCommand by decoding alone; a legal one by the phase check of its command. -/
theorem decodeComesBeforePhase : Obligations.DecodeComesBeforePhase :=
  ⟨fun _ _ _ _ _ hp hs hd => ⟨_, step_illegal hp hs hd, rfl, rfl⟩,
    fun _ _ _ _ _ hs hd h => step_legal_flags hs hd h,
    fun _ _ hp hs => step_illegal hp hs (r := .reserved) (by decide)⟩

/-- Settles O24, by whether the step raises an error; a command that raises none commutes with writing the flags. -/
theorem errorFlagsAreSticky : Obligations.ErrorFlagsAreSticky := by
  refine ⟨fun s t h hr => ?_, fun s t i q r he h => exec_with_flags q r he h⟩
  obtain ⟨hq, hi⟩ := step_keeps_set_flags h hr
  exact ⟨hq, hi, step_keeps_flags h hr⟩

/-- Settles O21: UPDATE and FINAL by the phase check, INIT by its effect. -/
theorem sequencingErrors : Obligations.SequencingErrors :=
  ⟨fun _ _ hi hp => exec_outside hi hp,
    fun s => ⟨s.initialised, congrArg answer (initialise_eq s), initialised_errSeq s, initialised_errIll s⟩⟩

end Sys2Proof.Machine

/-! SUPPORT. The statements of 70_reset_and_hazards.md on the reset edge (R120) and the outputs (R125), with the lemmas they
need. -/

namespace Sys2Proof.Machine

/-! ### An edge with `rst` = 1 (R27, R120) -/

theorem event_reset_of_rst {e : PortEdge} (h : e.rst = true) : e.event = .reset := if_pos h

/-- A reset edge gives a state in which only the edges to come are left of the state before. -/
theorem step_of_rst {s : State} {e : PortEdge} {rest : List PortEdge} (hs : s.edges = e :: rest) (hr : e.rst = true) :
    step s = .next { State.reset with edges := rest } := by
  rw [step_cons hs, event_reset_of_rst hr]
  rfl

/-! ### The output ports, by `cmd_ready` (R27, R125) -/

theorem cmdReady_of_rst {s : State} (h : s.rst = true) : s.cmdReady = some false := if_pos h

theorem statusPort_of_ready {s : State} (h : s.cmdReady = some true) : s.statusPort = s.statusWord := if_pos h

theorem statusPort_of_not_ready {s : State} (h : s.cmdReady ≠ some true) : s.statusPort = none := if_neg h

theorem digestPort_of_ready {s : State} (h : s.cmdReady = some true) : s.digestPort = s.digest.map bitsOfBytes := if_pos h

theorem digestPort_of_not_ready {s : State} (h : s.cmdReady ≠ some true) : s.digestPort = none := if_neg h

/-! ### The statements -/

/-- Settles O7: the state after a reset edge is the reset state with the edges to come, so it is the same from every state
with these edges, and its fields are those of the reset state. -/
theorem resetEdgeGivesTheResetState : Obligations.ResetEdgeGivesTheResetState := by
  intro s e rest hs hr
  have hsame (u : State) (hu : u.edges = s.edges) : step u = .next { State.reset with edges := rest } :=
    step_of_rst (hu.trans hs) hr
  exact ⟨_, step_of_rst hs hr, hsame, rfl, rfl, rfl, fun i hi => bufRead_nil hi, rfl, rfl, rfl, rfl, rfl, rfl, rfl⟩

/-- Settles O12: both ports are guarded by `cmd_ready`, which `rst` holds at 0. -/
theorem outputsOnlyWhenReady : Obligations.OutputsOnlyWhenReady :=
  ⟨fun _ _ h => ⟨statusPort_of_ready h, digestPort_of_ready h⟩,
    fun _ h => ⟨statusPort_of_not_ready h, digestPort_of_not_ready h⟩,
    fun _ h => cmdReady_of_rst h⟩

end Sys2Proof.Machine

/-! SUPPORT. The statements of 30_encoding.md on the two directions of the encoding (R45 to R49, R54), and of 10_state.md
and 70_reset_and_hazards.md on what an edge makes the engine do, with the lemmas they need. -/

namespace Sys2Proof.Machine

/-! ### A command's fields and its word (R45 to R49) -/

/-- The fields of a command's word (R46's table). -/
def instrFields : Instr → CmdFields
  | .init => ⟨1, 0, 0⟩
  | .update b => ⟨2, 0, b⟩
  | .final => ⟨3, 0, 0⟩

/-- Fields that make up a word are read back from it. -/
theorem ofWord_toWord (c : CmdFields) : CmdFields.ofWord c.toWord = c := by
  obtain ⟨op, rsv, data⟩ := c
  have hop : (op ++ rsv ++ data).extractLsb' 12 4 = op := by
    rw [BitVec.extractLsb'_append_eq_of_le (by decide), BitVec.extractLsb'_append_eq_left]
  have hrsv : (op ++ rsv ++ data).extractLsb' 8 4 = rsv := by
    rw [BitVec.extractLsb'_append_eq_of_le (by decide), BitVec.extractLsb'_append_eq_right]
  simp only [CmdFields.ofWord, CmdFields.toWord, hop, hrsv, BitVec.extractLsb'_append_eq_right]

theorem encode_eq_toWord (i : Instr) : encode i = (instrFields i).toWord := by
  cases i with
  | init => rfl
  | update b =>
    have hor : (2 : BitVec 4) ++ (0 : BitVec 4) ++ b = 0x2000#16 ||| b.zeroExtend 16 := by
      rw [BitVec.append_def, BitVec.setWidth'_eq]
      rfl
    exact hor.symm
  | final => rfl

theorem ofWord_encode (i : Instr) : CmdFields.ofWord (encode i) = instrFields i := by
  rw [encode_eq_toWord, ofWord_toWord]

/-- A word decodes to a command just when it has the command's fields. -/
theorem decode_eq_ok_iff (w : CmdBits) (i : Instr) : decode w = .ok i ↔ CmdFields.ofWord w = instrFields i := by
  constructor
  · intro h
    have hlegal : (CmdFields.ofWord w).legal = true := by
      rw [← Bool.not_eq_false, ← decode_error_iff, h]
      simp
    obtain hw | hw | hw := (legal_iff _).1 hlegal
    · rw [hw, ← Except.ok.inj ((decode_init hw).symm.trans h), instrFields]
    · rw [← Except.ok.inj ((decode_update hw).symm.trans h), instrFields, ← hw]
    · rw [hw, ← Except.ok.inj ((decode_final hw).symm.trans h), instrFields]
  · intro h
    cases i with
    | init => exact decode_init h
    | update b => exact decode_update h
    | final => exact decode_final h

theorem decode_encode (i : Instr) : decode (encode i) = .ok i := (decode_eq_ok_iff _ _).2 (ofWord_encode i)

theorem encode_of_decode {w : CmdBits} {i : Instr} (h : decode w = .ok i) : encode i = w := by
  rw [encode_eq_toWord, ← (decode_eq_ok_iff w i).1 h, toWord_ofWord]

/-! ### Edges and what a step answers at them (R24, R121, R131) -/

theorem accept_of_decode {w : CmdBits} {i : Instr} (h : decode w = .ok i) (s : State) : accept w s = exec i s := by
  rw [accept, h]

/-- A legal word presented after the first reset runs its command. -/
theorem step_of_decode {s : State} {p : Phase} {e : PortEdge} {rest : List PortEdge} {w : CmdBits} {i : Instr}
    (hp : s.phase = some p) (hs : s.edges = e :: rest) (he : e.event = .command w) (hd : decode w = .ok i) :
    step s = exec i { s with edges := rest } := by
  rw [step_command hs he hp, accept_of_decode hd]

theorem decode_of_decodeTableWord {nbits w : Nat} {i : Instr} (h : decodeTableWord nbits w = some i) :
    decode (tableWord nbits w) = .ok i := by
  unfold decodeTableWord at h
  cases hd : decode (tableWord nbits w) with
  | error r => simp [hd, Except.toOption] at h
  | ok j => simpa [hd, Except.toOption] using h

theorem event_command {e : PortEdge} {w : CmdBits} (hr : e.rst = false) (hv : e.cmdValid = some true)
    (hw : e.cmdWord = some w) : e.event = .command w := by
  simp [PortEdge.event, hr, hv, hw]

theorem event_idle {e : PortEdge} {w : CmdBits} (hr : e.rst = false) (hv : e.cmdValid = some false)
    (hw : e.cmdWord = some w) : e.event = .idle := by
  simp [PortEdge.event, hr, hv, hw]

theorem event_unknown {e : PortEdge} (hr : e.rst = false) (h : e.cmdValid = none ∨ e.cmdWord = none) :
    e.event = .unknown := by
  obtain hv | hw := h
  · simp [PortEdge.event, hr, hv]
  · cases hv : e.cmdValid with
    | none => simp [PortEdge.event, hr, hv]
    | some b => cases b <;> simp [PortEdge.event, hr, hv, hw]

/-- An idle edge only goes by. -/
theorem step_idle {s : State} {e : PortEdge} {rest : List PortEdge} (hs : s.edges = e :: rest) (he : e.event = .idle) :
    step s = .next { s with edges := rest } := by
  rw [step_cons hs, he, stepEvent]

theorem step_unknown {s : State} {e : PortEdge} {rest : List PortEdge} (hs : s.edges = e :: rest)
    (he : e.event = .unknown) : step s = .fault .unknownDrive := by
  rw [step_cons hs, he, stepEvent]

/-- Before the first reset no command is accepted (R121). -/
theorem step_command_before_reset {s : State} {e : PortEdge} {rest : List PortEdge} {w : CmdBits} (hs : s.edges = e :: rest)
    (he : e.event = .command w) (hp : s.phase = none) : step s = .fault .commandBeforeReset := by
  simp only [step_cons hs, he, stepEvent, acceptIfReset, hp]

theorem raisedError_before_reset {s : State} (hp : s.phase = none) : s.raisedError = none := by
  cases hs : s.edges with
  | nil => simp [State.raisedError, hs]
  | cons e rest =>
    cases hr : s.raisedError with
    | none => rfl
    | some err =>
      obtain ⟨w, p, -, hsome, -⟩ := raisedError_some hs hr
      simp [hp] at hsome

theorem cmdReady_before_reset {s : State} (hp : s.phase = none) (hr : s.rst = false) : s.cmdReady = none := by
  simp [State.cmdReady, hp, hr]

theorem statusPort_before_reset {s : State} (hp : s.phase = none) : s.statusPort = none := by
  simp [State.statusPort, State.statusWord, hp]

/-! ### The STATUS word (R25) -/

theorem statusWord_of_fields {s : State} {p : Phase} {q i : Bool} (hp : s.phase = some p) (hq : s.errSeq = some q)
    (hi : s.errIll = some i) : s.statusWord = some (statusBits p q i) := by
  rw [State.statusWord, hp, hq, hi]

/-- The two flags' bits, and the bits above them. -/
theorem statusBits_flags (p : Phase) (q i : Bool) :
    (statusBits p q i).getLsbD 2 = q ∧ (statusBits p q i).getLsbD 3 = i ∧ (statusBits p q i).extractLsb' 4 12 = 0 := by
  cases p <;> cases q <;> cases i <;> decide

/-! ### The statements -/

/-- Settles O3: a word decodes to a command just when its fields are the command's, and fields and word determine each
other. -/
theorem decodeEncodeAgree : Obligations.DecodeEncodeAgree :=
  ⟨decode_encode, fun _ _ h => encode_of_decode h⟩

/-- Settles O1: each word of the table, decoded. -/
theorem decoderVectors : Obligations.DecoderVectors := by
  refine ⟨?_, ?_, ?_, ?_, ?_, ?_, ?_⟩ <;> decide

/-- Settles O5: the decoder refuses just the words whose fields are not legal. -/
theorem legalFieldsDecode : Obligations.LegalFieldsDecode := by
  refine fun w => ⟨Bool.eq_iff_iff.2 ?_, toWord_ofWord w⟩
  rw [← Bool.not_eq_false, ← isNone_toOption_decode_iff, Bool.not_eq_true, Option.isNone_eq_false_iff]

/-- Settles O6: a command edge runs what its word decodes to, and `withFetchWord` puts such an edge in front. -/
theorem stepRunsTheDecodedCommand : Obligations.StepRunsTheDecodedCommand :=
  ⟨fun _ _ _ _ _ _ hp hs hr hv hw hd => step_of_decode hp hs (event_command hr hv hw) hd,
    fun s _ n w _ hp hd => step_of_decode (s := s.withFetchWord n w) hp (withFetchWord_edges s n w) (event_present _)
      (decode_of_decodeTableWord hd)⟩

/-- Settles O8, by the two cases of a step without a command. -/
theorem idleEdgesChangeNothing : Obligations.IdleEdgesChangeNothing :=
  ⟨fun _ hs => step_nil hs, fun _ _ _ _ hs hr hv hw => step_idle hs (event_idle hr hv hw)⟩

/-- Settles O9: before the first reset there is no phase, which the command edge and every output read. -/
theorem powerUpNeedsReset : Obligations.PowerUpNeedsReset := by
  refine ⟨fun w rest => ⟨step_command_before_reset rfl (event_present w) rfl, raisedError_before_reset rfl⟩,
    fun edges => ⟨Prod.ext (statusPort_before_reset rfl) (digestPort_of_ne_done (by simp [State.powerUp])),
      cmdReady_before_reset rfl⟩,
    fun e rest he => step_idle rfl he, fun e rest hr => step_of_rst rfl hr⟩

/-- Settles O10: an unknown value on either signal is the unknown event. -/
theorem unknownDriveStops : Obligations.UnknownDriveStops :=
  fun _ _ _ hs hr h => step_unknown hs (event_unknown hr h)

/-- Settles O11: the word of the three fields, read bit by bit. -/
theorem statusWordLayout : Obligations.StatusWordLayout := by
  refine ⟨fun s p q i hp hq hi => ?_, by decide, by decide, by decide⟩
  exact ⟨_, statusWord_of_fields hp hq hi, extractLsb'_statusBits p q i, statusBits_flags p q i⟩

end Sys2Proof.Machine

/-! SUPPORT. The statements of 10_state.md on the invariant between commands (R11 to R15, R20, R22), with the lemmas they
need. -/

namespace Sys2Proof.Machine

/-! ### What each phase holds -/

theorem phaseInv_active_iff {s : State} (hp : s.phase = some .active) :
    s.phaseInv ↔ s.holdsMessage ∧ s.digestState.isSome ∧ s.errSeq.isSome ∧ s.errIll.isSome := by
  rw [State.phaseInv, hp]

/-- After the first reset both error flags hold a value. -/
theorem phaseInv_flags {s : State} (h : s.phaseInv) (hp : s.phase.isSome) : s.errSeq.isSome ∧ s.errIll.isSome := by
  rw [State.phaseInv] at h
  split at h
  next hnone => simp [hnone] at hp
  next => exact h.2.2
  next => exact h.2.2
  next => exact h.2.2

theorem inv_reset (edges : List PortEdge) : State.Inv { State.reset with edges := edges } :=
  ⟨wf_nil, rfl, ⟨rfl, rfl, rfl⟩, rfl, rfl, rfl⟩

theorem inv_powerUp : State.powerUp.Inv := ⟨wf_nil, rfl, ⟨rfl, rfl, rfl⟩, rfl, rfl, rfl⟩

/-! ### The commands keep the invariant -/

theorem isSome_get?_set {m : Memory} {j : Nat} (i : Nat) (v : Byte) (h : (Memory.get? m j).isSome) :
    (Memory.get? (Memory.set m i v) j).isSome := by
  by_cases hj : j = i
  · rw [hj, get?_set_self, Option.isSome_some]
  · rwa [get?_set_of_ne m v hj]

theorem inv_setErrorFlag (err : CmdError) {s : State} (h : s.Inv) (hp : s.phase.isSome) : (s.setErrorFlag err).Inv := by
  obtain ⟨hwf, hwork, hphase⟩ := h
  refine ⟨by rwa [setErrorFlag_buffer], by rwa [setErrorFlag_work], ?_⟩
  obtain ⟨hq, hi⟩ := phaseInv_flags hphase hp
  have hflags : (s.setErrorFlag err).errSeq.isSome ∧ (s.setErrorFlag err).errIll.isSome := by
    cases err with
    | seqError => exact ⟨rfl, hi⟩
    | illegalCommand => exact ⟨hq, rfl⟩
  simp only [State.phaseInv, State.holdsNoMessage, State.holdsMessage, setErrorFlag_phase, setErrorFlag_buffer,
    setErrorFlag_bufferedLen, setErrorFlag_totalBits, setErrorFlag_digestState] at hphase ⊢
  split at hphase
  next hnone => simp [hnone] at hp
  next => exact ⟨hphase.1, hphase.2.1, hflags⟩
  next => exact ⟨hphase.1, hphase.2.1, hflags⟩
  next => exact ⟨hphase.1, hphase.2.1, hflags⟩

theorem inv_initialised {s : State} (h : s.Inv) (hp : s.phase.isSome) : s.initialised.Inv := by
  obtain ⟨hwf, hwork, hphase⟩ := h
  have hflags := phaseInv_flags hphase hp
  have hbuf (i : Nat) (hi : i < 64) : (Memory.get? s.initialised.buffer i).isSome := by
    rw [initialised_buffer, get?_setAll_zeroBytes _ hi, Option.isSome_some]
  refine ⟨?_, by rwa [initialised_work], (phaseInv_active_iff (initialised_phase s)).2 ?_⟩
  · rw [initialised_buffer]
    exact wf_setAll hwf (by simp)
  · exact ⟨⟨hbuf, ⟨0, initialised_bufferedLen s, by decide⟩, ⟨_, initialised_totalBits s, rfl⟩⟩,
      by rw [initialised_digestState, Option.isSome_some], by rwa [initialised_errSeq, initialised_errIll]⟩

/-- Adding a block's bits keeps `total_bits` a multiple of 512, also when it wraps. -/
theorem add_512_mod_512 {bits : Length} (h : bits.toNat % 512 = 0) : (bits + 512#64).toNat % 512 = 0 := by
  rw [BitVec.toNat_add, BitVec.toNat_ofNat]
  omega

theorem inv_append {s t : State} {b : Byte} (h : s.Inv) (hp : s.phase = some .active) (ht : s.append b = .ok t) :
    t.Inv := by
  obtain ⟨hwf, hwork, hphase⟩ := h
  obtain ⟨⟨hbuf, -, hbits⟩, hdigest, hflags⟩ := (phaseInv_active_iff hp).1 hphase
  obtain ⟨n, hn, ⟨hlt, rfl⟩ | ⟨rfl, hf⟩⟩ := append_ok ht
  · refine ⟨wf_set b hwf (by omega), hwork, (phaseInv_active_iff (by rwa [appended_phase])).2 ?_⟩
    exact ⟨⟨fun i hi => isSome_get?_set n b (hbuf i hi), ⟨n + 1, rfl, by omega⟩, hbits⟩, hdigest, hflags⟩
  · obtain ⟨block, hw, bits, -, -, hb, rfl⟩ := flush_ok hf
    obtain ⟨bits', hb', hmul⟩ := hbits
    obtain rfl : bits' = bits := Option.some.inj (hb'.symm.trans hb)
    refine ⟨wf_set b hwf (by decide), rfl, (phaseInv_active_iff (by exact hp)).2 ?_⟩
    exact ⟨⟨fun i hi => isSome_get?_set 63 b (hbuf i hi), ⟨0, rfl, by decide⟩, ⟨_, rfl, add_512_mod_512 hmul⟩⟩, rfl, hflags⟩

theorem inv_finish {s t : State} (h : s.Inv) (hp : s.phase = some .active) (ht : s.finish = .ok t) : t.Inv := by
  obtain ⟨-, -, hflags⟩ := (phaseInv_active_iff hp).1 h.2.2
  obtain ⟨p, bits, block, blocks, hw, -, -, -, -, rfl⟩ := finish_ok ht
  exact ⟨wf_nil, rfl, ⟨rfl, rfl, rfl⟩, rfl, hflags⟩

theorem inv_exec {i : Instr} {s t : State} (h : s.Inv) (hp : s.phase.isSome) (ht : exec i s = .next t) : t.Inv := by
  obtain ⟨rfl, rfl⟩ | ⟨b, rfl, hact, ha⟩ | ⟨rfl, hact, hf⟩ | ⟨-, -, rfl⟩ := exec_next ht
  · exact inv_initialised h hp
  · exact inv_append h hact ha
  · exact inv_finish h hact hf
  · exact inv_setErrorFlag .seqError h hp

/-- The invariant does not speak of the edges to come. -/
theorem inv_with_edges {s : State} (h : s.Inv) (edges : List PortEdge) : State.Inv { s with edges := edges } := h

theorem inv_step {s t : State} (h : s.Inv) (ht : step s = .next t) : t.Inv := by
  obtain ⟨-, rfl⟩ | ⟨e, rest, -, ⟨-, rfl⟩ | ⟨-, rfl⟩ | ⟨w, -, hp, ⟨r, -, rfl⟩ | ⟨i, -, hx⟩⟩⟩ := step_next ht
  · exact h
  · exact inv_reset rest
  · exact inv_with_edges h rest
  · exact inv_setErrorFlag .illegalCommand (inv_with_edges h rest) hp
  · exact inv_exec (inv_with_edges h rest) hp hx

/-! ### Under the invariant no command stops -/

/-- The bytes of a buffer that all hold a value, as a list. -/
theorem exists_bufRead_eq {m : Memory} {n : Nat} (hn : n ≤ 64) (h : ∀ i < 64, (Memory.get? m i).isSome) :
    ∃ M : List Byte, M.length = n ∧ ∀ i < n, bufRead i m = .ok (M.getD i 0) := by
  refine ⟨(List.range n).map fun i => (Memory.get? m i).getD 0, by simp, fun i hi => bufRead_ok (by omega) ?_⟩
  obtain ⟨v, hv⟩ := Option.isSome_iff_exists.1 (h i (by omega))
  simp [hi, hv]

theorem exec_init (s : State) : exec .init s = .next s.initialised := congrArg answer (initialise_eq s)

theorem exec_active_answers {s : State} (h : s.Inv) (hp : s.phase = some .active) (i : Instr) :
    ∃ t, exec i s = .next t := by
  obtain ⟨⟨hbuf, ⟨n, hn, hlt⟩, ⟨bits, hb, -⟩⟩, hdigest, -⟩ := (phaseInv_active_iff hp).1 h.2.2
  obtain ⟨hw, hs⟩ := Option.isSome_iff_exists.1 hdigest
  obtain ⟨M, hl, hM⟩ := exists_bufRead_eq hlt.le hbuf
  cases i with
  | init => exact ⟨_, exec_init s⟩
  | update b =>
    obtain hlt63 | rfl : n < 63 ∨ n = 63 := by omega
    · exact ⟨_, exec_update_of_lt hp hn hlt63 b⟩
    · exact ⟨_, exec_update_flush hp hn hl hM hs hb b⟩
  | final =>
    subst hl
    exact ⟨_, exec_final_eq hp hn hlt hM hs hb⟩

theorem exec_answers {s : State} (h : s.Inv) (hp : s.phase.isSome) (i : Instr) : ∃ t, exec i s = .next t := by
  by_cases hi : i = .init
  · exact ⟨_, hi ▸ exec_init s⟩
  obtain ⟨p, hp⟩ := Option.isSome_iff_exists.1 hp
  cases p with
  | uninit => exact ⟨_, exec_outside hi (.inl hp)⟩
  | active => exact exec_active_answers h hp i
  | done => exact ⟨_, exec_outside hi (.inr hp)⟩

/-! ### The statements -/

/-- Settles O40: neither state holds a part of a message. -/
theorem resetMeetsTheInvariant : Obligations.ResetMeetsTheInvariant := ⟨inv_reset [], inv_powerUp⟩

/-- Settles O41, by the cases of a step that answers; each command's effect keeps what the phase it leaves holds. -/
theorem stepKeepsTheInvariant : Obligations.StepKeepsTheInvariant := fun _ _ h ht => inv_step h ht

/-- Settles O42, by the event of the next edge; in ACTIVE the invariant gives every value that a command reads. -/
theorem stepsNeverStop : Obligations.StepsNeverStop := by
  intro s h hp hknown
  cases hs : s.edges with
  | nil => exact ⟨s, step_nil hs⟩
  | cons e rest =>
    cases he : e.event with
    | reset => exact ⟨_, step_of_rst hs (rst_of_event_reset he)⟩
    | idle => exact ⟨_, step_idle hs he⟩
    | unknown => exact absurd he (hknown e rest hs)
    | command w =>
      cases hd : decode w with
      | error r =>
        obtain ⟨p, hp⟩ := Option.isSome_iff_exists.1 hp
        exact ⟨_, step_of_raisedError hs (err := .illegalCommand) (by simp [raisedError_command hs he hp, wordError, hd])⟩
      | ok i =>
        obtain ⟨t, ht⟩ := exec_answers (inv_with_edges h rest) hp i
        obtain ⟨p, hp⟩ := Option.isSome_iff_exists.1 hp
        exact ⟨t, by rw [step_of_decode hp hs he hd, ht]⟩

end Sys2Proof.Machine

/-! SUPPORT. The statements of 40_commands.md on INIT (R60), of 20_memory.md on the buffer's writes (R31) and stale bytes
(R44), of 10_state.md on absent fields (R20) and on who writes `total_bits` and `H` (R13, R14), and of
41_padding_length.md on the length field and the padded blocks (R70 to R76), with the lemmas they need. -/

namespace Sys2Proof.Machine

/-! ### INIT's buffer (R60) -/

theorem get?_eq_none_of_wf {m : Memory} (hm : Memory.wf m) {i : Nat} (hi : 64 ≤ i) : Memory.get? m i = none := by
  replace hm := ((wf_iff m).1 hm).2
  induction m with
  | nil => rfl
  | cons c m ih =>
    have hc : c.1 < 64 := hm c.1 (by simp)
    rw [Memory.get?, if_neg (by omega), ih fun a ha => hm a (by simp [ha])]

/-- Written over with zeros, a buffer in canonical form is the same whatever it held. -/
theorem setAll_zeroBytes_eq {m : Memory} (hm : Memory.wf m) :
    Memory.setAll m 0 (zeroBytes 64) = (List.range 64).map fun i => (i, 0x00#8) := by
  have hempty : Memory.setAll [] 0 (zeroBytes 64) = (List.range 64).map fun i => (i, 0x00#8) := by decide
  rw [← hempty]
  refine wf_ext (wf_setAll hm (by simp)) (wf_setAll wf_nil (by simp)) fun i => ?_
  rw [get?_setAll, get?_setAll]
  split
  · rfl
  · next hi => rw [get?_eq_none_of_wf hm (by simpa using hi), Memory.get?]

theorem initialised_initialised {s : State} (hm : Memory.wf s.buffer) : s.initialised.initialised = s.initialised := by
  have hbuf : Memory.setAll (Memory.setAll s.buffer 0 (zeroBytes 64)) 0 (zeroBytes 64) =
      Memory.setAll s.buffer 0 (zeroBytes 64) := by
    rw [setAll_zeroBytes_eq (wf_setAll hm (by simp)), setAll_zeroBytes_eq hm]
  simp only [State.initialised, hbuf]

/-! ### Reading and writing out of range, and fields without a value (R20, R31) -/

theorem bufRead_of_get?_none {m : Memory} {i : Nat} (hi : i < 64) (h : Memory.get? m i = none) :
    bufRead i m = .error (.absentField (.buffer i)) := by
  have hheld : bufRead i m = held (.buffer i) (Memory.get? m i) := if_pos hi
  rw [hheld, h, held_none]

theorem bufWriteAll_of_ge {i : Nat} (hi : 64 ≤ i) {vs : List Byte} (hvs : vs ≠ []) (m : Memory) :
    bufWriteAll i vs m = .error (.bufferIndex i) := by
  cases vs with
  | nil => exact absurd rfl hvs
  | cons v vs => rw [bufWriteAll, bufWrite_of_ge hi, error_bind]

theorem append_of_ge {s : State} {n : Nat} (hn : s.bufferedLen = some n) (hge : 64 ≤ n) (b : Byte) :
    s.append b = .error (.bufferIndex n) := by
  rw [State.append, hn, held_some, ok_bind, bufWrite_of_ge hge, error_bind]

theorem append_without_bufferedLen {s : State} (hn : s.bufferedLen = none) (b : Byte) :
    s.append b = .error (.absentField .bufferedLen) := by
  rw [State.append, hn, held_none, error_bind]

theorem finish_without_bufferedLen {s : State} (hn : s.bufferedLen = none) :
    s.finish = .error (.absentField .bufferedLen) := by
  rw [State.finish, hn, held_none, error_bind]

theorem finish_without_totalBits {s : State} {p : Nat} (hn : s.bufferedLen = some p) (ht : s.totalBits = none) :
    s.finish = .error (.absentField .totalBits) := by
  rw [State.finish, hn, held_some, ok_bind, ht, held_none, error_bind]

theorem compressBlock_without_digest {s : State} (hs : s.digestState = none) (block : List Byte) :
    s.compressBlock block = .error (.absentField .digestState) := by
  rw [State.compressBlock, hs, held_none, error_bind]

theorem whenActive_without_phase {s : State} (hp : s.phase = none) (effect : State → Except Fault State) :
    whenActive effect s = .fault (.absentField .phase) := by
  rw [whenActive, hp]

theorem exec_without_phase {i : Instr} {s : State} (hi : i ≠ .init) (hp : s.phase = none) :
    exec i s = .fault (.absentField .phase) := by
  cases i with
  | init => exact absurd rfl hi
  | update b => exact whenActive_without_phase hp _
  | final => exact whenActive_without_phase hp _

theorem exec_without_bufferedLen {i : Instr} {s : State} (hi : i ≠ .init) (hp : s.phase = some .active)
    (hn : s.bufferedLen = none) : exec i s = .fault (.absentField .bufferedLen) := by
  cases i with
  | init => exact absurd rfl hi
  | update b => rw [exec_update_active hp, append_without_bufferedLen hn, answer_error]
  | final => rw [exec_final_active hp, finish_without_bufferedLen hn, answer_error]

/-! ### The blocks that are read have 64 bytes (R32, R75) -/

theorem length_of_bufReadFrom {i n : Nat} {m : Memory} {bs : List Byte} (h : bufReadFrom i n m = .ok bs) :
    bs.length = n := by
  induction n generalizing i bs with
  | zero => rw [← Except.ok.inj h, List.length_nil]
  | succ n ih =>
    rw [bufReadFrom] at h
    cases hb : bufRead i m with
    | error f => simp [hb] at h
    | ok b =>
      cases hbs : bufReadFrom (i + 1) n m with
      | error f => simp [hb, hbs] at h
      | ok bs' =>
        rw [hb, ok_bind, hbs, ok_bind] at h
        rw [← Except.ok.inj h, List.length_cons, ih hbs]

theorem length_of_bufBlock {m : Memory} {block : List Byte} (h : bufBlock m = .ok block) : block.length = 64 :=
  length_of_bufReadFrom h

/-- FINAL builds one block or two, each of 64 bytes. -/
theorem length_of_finalBlocks {p : Nat} {L : Length} {m : Memory} {blocks : List (List Byte)}
    (h : finalBlocks p L m = .ok blocks) :
    (blocks.length = 1 ∨ blocks.length = 2) ∧ ∀ block ∈ blocks, block.length = 64 := by
  rw [finalBlocks] at h
  cases h1 : bufWriteAll p (padTail p L) m with
  | error f => simp [h1] at h
  | ok m1 =>
    cases h2 : bufBlock m1 with
    | error f => simp [h1, h2] at h
    | ok first =>
      rw [h1, ok_bind, h2, ok_bind] at h
      split at h
      · rw [← Except.ok.inj h]
        simp [length_of_bufBlock h2]
      · cases h3 : bufWriteAll 0 (lengthBlock L) m1 with
        | error f => simp [h3] at h
        | ok m2 =>
          cases h4 : bufBlock m2 with
          | error f => simp [h3, h4] at h
          | ok second =>
            rw [h3, ok_bind, h4, ok_bind] at h
            rw [← Except.ok.inj h]
            simp [length_of_bufBlock h2, length_of_bufBlock h4]

theorem length_of_mem_padBlocks {M : List Byte} {L : Length} {block : List Byte} (hlt : M.length < 64)
    (h : block ∈ padBlocks M L) : block.length = 64 := by
  have hfirst : (M ++ padTail M.length L).length = 64 := by rw [List.length_append, length_padTail hlt]
  rw [padBlocks_eq] at h
  split at h
  · rw [List.mem_singleton.1 h, hfirst]
  · obtain rfl | h := List.mem_cons.1 h
    · exact hfirst
    · rw [List.mem_singleton.1 h, length_lengthBlock]

theorem padBlocks_of_le {M : List Byte} (h : M.length ≤ 55) (L : Length) :
    padBlocks M L = [M ++ [0x80#8] ++ zeroBytes (55 - M.length) ++ lenBytes L] := if_pos h

theorem padBlocks_of_ge {M : List Byte} (h : 56 ≤ M.length) (L : Length) :
    padBlocks M L = [M ++ [0x80#8] ++ zeroBytes (63 - M.length), zeroBytes 56 ++ lenBytes L] := if_neg (by omega)

/-! ### Who writes `total_bits` and `H` (R13, R14) -/

theorem exec_update_writes {s t : State} {b : Byte} (h : exec (.update b) s = .next t) :
    (s.phase = some .active ∧ s.bufferedLen = some 63 ∧ t.totalBits = s.totalBits.map (· + 512#64) ∧
      ∃ block, block.length = 64 ∧ t.digestState = s.digestState.map fun h => compress h block) ∨
    (¬(s.phase = some .active ∧ s.bufferedLen = some 63) ∧ t.totalBits = s.totalBits ∧
      t.digestState = s.digestState) := by
  obtain ⟨hi, -⟩ | ⟨b', -, hp, ha⟩ | ⟨hi, -⟩ | ⟨-, hp, rfl⟩ := exec_next h
  · cases hi
  · obtain ⟨n, hn, ⟨hlt, rfl⟩ | ⟨rfl, hf⟩⟩ := append_ok ha
    · refine .inr ⟨fun ⟨_, h63⟩ => ?_, appended_totalBits s n b', appended_digestState s n b'⟩
      have : n = 63 := Option.some.inj (hn.symm.trans h63)
      omega
    · obtain ⟨block, hw, bits, hblock, hs, ht, rfl⟩ := flush_ok hf
      rw [appended_digestState] at hs
      rw [appended_totalBits] at ht
      exact .inl ⟨hp, hn, by rw [ht]; rfl, block, length_of_bufBlock hblock, by rw [hs]; rfl⟩
  · cases hi
  · refine .inr ⟨fun ⟨hact, _⟩ => ?_, setErrorFlag_totalBits _ s, setErrorFlag_digestState _ s⟩
    simp [hact] at hp

theorem exec_final_writes {s t : State} (h : exec .final s = .next t) :
    (s.phase = some .active ∧ t.totalBits = none ∧
      ∃ blocks : List (List Byte), (blocks.length = 1 ∨ blocks.length = 2) ∧
        (∀ block ∈ blocks, block.length = 64) ∧ t.digestState = s.digestState.map fun h => blocks.foldl compress h) ∨
    (s.phase ≠ some .active ∧ t.totalBits = s.totalBits ∧ t.digestState = s.digestState) := by
  obtain ⟨hi, -⟩ | ⟨b, hi, -⟩ | ⟨-, hp, hf⟩ | ⟨-, hp, rfl⟩ := exec_next h
  · cases hi
  · cases hi
  · obtain ⟨p, bits, block, blocks, hw, -, -, hs, hblocks, rfl⟩ := finish_ok hf
    obtain ⟨hcount, hlen⟩ := length_of_finalBlocks hblocks
    exact .inl ⟨hp, rfl, block :: blocks, hcount, hlen, by rw [hs]; rfl⟩
  · refine .inr ⟨fun hact => ?_, setErrorFlag_totalBits _ s, setErrorFlag_digestState _ s⟩
    simp [hact] at hp

/-- The step's side of O20, by the event of its edge. -/
theorem step_writes {s t : State} {e : PortEdge} {rest : List PortEdge} (hs : s.edges = e :: rest)
    (h : step s = .next t) :
    (e.event = .reset → t.totalBits = none ∧ t.digestState = none) ∧
    (e.event = .idle → t.totalBits = s.totalBits ∧ t.digestState = s.digestState) ∧
    ∀ w, e.event = .command w →
      (∀ i, decode w = .ok i → exec i { s with edges := rest } = .next t) ∧
      ∀ r, decode w = .error r → t.totalBits = s.totalBits ∧ t.digestState = s.digestState := by
  obtain ⟨hnil, -⟩ | ⟨e', rest', hs', hev⟩ := step_next h
  · simp [hs] at hnil
  obtain ⟨rfl, rfl⟩ : e = e' ∧ rest = rest' := by simpa [hs] using hs'
  obtain ⟨he, rfl⟩ | ⟨he, rfl⟩ | ⟨w, he, -, ⟨r, hd, rfl⟩ | ⟨i, hd, hx⟩⟩ := hev
  · simp [he, State.reset]
  · simp [he]
  · simp [he, hd]
  · simp [he, hd, hx]

/-! ### Stale bytes (R44) -/

/-- A state with another buffer. -/
def State.withBuffer (s : State) (m : Memory) : State := { s with buffer := m }

@[simp] theorem withBuffer_buffer (s : State) (m : Memory) : (s.withBuffer m).buffer = m := rfl
@[simp] theorem withBuffer_bufferedLen (s : State) (m : Memory) : (s.withBuffer m).bufferedLen = s.bufferedLen := rfl
@[simp] theorem withBuffer_totalBits (s : State) (m : Memory) : (s.withBuffer m).totalBits = s.totalBits := rfl
@[simp] theorem withBuffer_digestState (s : State) (m : Memory) : (s.withBuffer m).digestState = s.digestState := rfl

/-- A state differs from itself in no byte; in ACTIVE the relation asks for `buffered_len`. -/
theorem sameUpToStale_refl {s : State} (h : s.phase = some .active → ∃ n, s.bufferedLen = some n) : sameUpToStale s s := by
  refine ⟨rfl, ?_⟩
  by_cases hp : s.phase = some .active
  · obtain ⟨n, hn⟩ := h hp
    exact .inr ⟨hp, n, hn, fun _ _ => rfl⟩
  · exact .inl ⟨hp, rfl⟩

theorem sameUpToStale_of_active {s : State} {n : Nat} {m : Memory} (hp : s.phase = some .active)
    (hn : s.bufferedLen = some n) (h : ∀ i < n, Memory.get? s.buffer i = Memory.get? m i) :
    sameUpToStale s (s.withBuffer m) :=
  ⟨rfl, .inr ⟨hp, n, hn, h⟩⟩

/-- Memories that agree below `i` agree on the whole block once it is written from `i` on. -/
theorem get?_setAll_congr {m m' : Memory} {i : Nat} {vs : List Byte} (hl : i + vs.length = 64)
    (h : ∀ j < i, Memory.get? m j = Memory.get? m' j) (j : Nat) (hj : j < 64) :
    Memory.get? (Memory.setAll m i vs) j = Memory.get? (Memory.setAll m' i vs) j := by
  rw [get?_setAll, get?_setAll]
  split
  · rfl
  · exact h j (by omega)

theorem get?_set_congr {m m' : Memory} {n : Nat} (h : ∀ i < n, Memory.get? m i = Memory.get? m' i) (b : Byte) (i : Nat)
    (hi : i < n + 1) : Memory.get? (Memory.set m n b) i = Memory.get? (Memory.set m' n b) i := by
  by_cases hin : i = n
  · rw [hin, get?_set_self, get?_set_self]
  · rw [get?_set_of_ne m b hin, get?_set_of_ne m' b hin, h i (by omega)]

/-- The final blocks depend on the bytes below `p` alone. -/
theorem finalBlocks_congr {p : Nat} {m m' : Memory} (h : ∀ i < p, Memory.get? m i = Memory.get? m' i) (L : Length) :
    finalBlocks p L m = finalBlocks p L m' := by
  by_cases hp : p < 64
  · have hfirst := get?_setAll_congr (length_padTail hp L) h
    have hsecond := get?_setAll_congr (i := 0) (m := Memory.setAll m p (padTail p L))
      (m' := Memory.setAll m' p (padTail p L)) ((Nat.zero_add _).trans (length_lengthBlock L)) (by simp)
    have hzero : 0 + (lengthBlock L).length ≤ 64 := by simp [length_lengthBlock]
    simp only [finalBlocks, bufWriteAll_ok (length_padTail hp L).le, bufWriteAll_ok hzero, ok_bind, bufBlock_congr hfirst,
      bufBlock_congr hsecond]
  · have hne : padTail p L ≠ [] := by rw [padTail]; split <;> simp
    rw [finalBlocks, finalBlocks, bufWriteAll_of_ge (by omega) hne, bufWriteAll_of_ge (by omega) hne, error_bind]

/-- FINAL reads the buffer through its final blocks alone, and leaves it without a value. -/
theorem finish_with_buffer {s : State} {p : Nat} {m : Memory} (hn : s.bufferedLen = some p)
    (h : ∀ i < p, Memory.get? s.buffer i = Memory.get? m i) : (s.withBuffer m).finish = s.finish := by
  cases ht : s.totalBits with
  | none => rw [finish_without_totalBits hn ht, finish_without_totalBits (s := s.withBuffer m) hn ht]
  | some bits =>
    have hcongr := finalBlocks_congr h (lengthField bits p)
    cases hb : finalBlocks p (lengthField bits p) m with
    | error f => simp [State.finish, hn, ht, hcongr, hb]
    | ok blocks =>
      obtain ⟨block, rest, rfl⟩ := finalBlocks_ok hb
      cases hs : s.digestState with
      | none =>
        simp [State.finish, hn, ht, hcongr, hb, hs, State.compressBlocks, compressBlock_without_digest]
      | some hw =>
        rw [finish_of hn ht hs (hcongr.trans hb), finish_of (s := s.withBuffer m) hn ht hs hb]
        rfl

/-- A flush reads the buffer as one block, and leaves an empty one. -/
theorem sameAnswer_flush {s : State} {m : Memory} (hp : s.phase = some .active)
    (h : ∀ i < 64, Memory.get? s.buffer i = Memory.get? m i) :
    sameAnswer (answer s.flush) (answer ((s.withBuffer m).flush)) := by
  have hcongr := bufBlock_congr h
  cases hb : bufBlock m with
  | error f => simp [State.flush, hcongr, hb, sameAnswer]
  | ok block =>
    cases hs : s.digestState with
    | none => simp [State.flush, hcongr, hb, hs, compressBlock_without_digest, sameAnswer]
    | some hw =>
      cases ht : s.totalBits with
      | none => simp [State.flush, hcongr, hb, compressBlock_of_some, hs, ht, sameAnswer]
      | some bits =>
        rw [flush_of (hcongr.trans hb) hs ht, flush_of (s := s.withBuffer m) hb hs ht]
        exact ⟨rfl, .inr ⟨hp, 0, rfl, by simp⟩⟩

theorem sameAnswer_append {s : State} {n : Nat} {m : Memory} (hp : s.phase = some .active) (hn : s.bufferedLen = some n)
    (h : ∀ i < n, Memory.get? s.buffer i = Memory.get? m i) (b : Byte) :
    sameAnswer (answer (s.append b)) (answer ((s.withBuffer m).append b)) := by
  have hset := get?_set_congr h b
  obtain hlt | rfl | hge : n < 63 ∨ n = 63 ∨ 64 ≤ n := by omega
  · rw [append_eq hn (by omega), append_eq (s := s.withBuffer m) hn (by omega), if_neg (by omega), if_neg (by omega)]
    exact sameUpToStale_of_active (s := s.appended n b) hp rfl hset
  · rw [append_eq hn (by decide), append_eq (s := s.withBuffer m) hn (by decide), if_pos rfl, if_pos rfl]
    exact sameAnswer_flush (s := s.appended 63 b) hp hset
  · rw [append_of_ge hn hge, append_of_ge (s := s.withBuffer m) hn hge]
    rfl

theorem sameAnswer_exec {s : State} {n : Nat} {m : Memory} (hp : s.phase = some .active) (hn : s.bufferedLen = some n)
    (h : ∀ i < n, Memory.get? s.buffer i = Memory.get? m i) (i : Instr) :
    sameAnswer (exec i s) (exec i (s.withBuffer m)) := by
  cases i with
  | init =>
    rw [exec_init, exec_init]
    exact sameUpToStale_of_active (s := s.initialised) rfl rfl (by simp)
  | update b =>
    rw [exec_update_active hp, exec_update_active (s := s.withBuffer m) hp]
    exact sameAnswer_append hp hn h b
  | final =>
    rw [exec_final_active hp, exec_final_active (s := s.withBuffer m) hp, finish_with_buffer hn h]
    cases hf : s.finish with
    | error f => rfl
    | ok t => exact sameUpToStale_refl fun hact => by simp [finish_phase hf] at hact

/-- The steps of two states in ACTIVE that agree below `buffered_len`, by the event of the edge they share. -/
theorem sameAnswer_step_active {s : State} {n : Nat} {m : Memory} (hp : s.phase = some .active)
    (hn : s.bufferedLen = some n) (h : ∀ i < n, Memory.get? s.buffer i = Memory.get? m i) :
    sameAnswer (step s) (step (s.withBuffer m)) := by
  cases hs : s.edges with
  | nil =>
    rw [step_nil hs, step_nil (s := s.withBuffer m) hs]
    exact sameUpToStale_of_active hp hn h
  | cons e rest =>
    cases he : e.event with
    | reset =>
      have hr := rst_of_event_reset he
      rw [step_of_rst hs hr, step_of_rst (s := s.withBuffer m) hs hr]
      exact sameUpToStale_refl (by simp [State.reset])
    | idle =>
      rw [step_idle hs he, step_idle (s := s.withBuffer m) hs he]
      exact sameUpToStale_of_active (s := { s with edges := rest }) hp hn h
    | unknown =>
      rw [step_unknown hs he, step_unknown (s := s.withBuffer m) hs he]
      rfl
    | command w =>
      rw [step_command hs he hp, step_command (s := s.withBuffer m) hs he hp]
      cases hd : decode w with
      | error r =>
        simp only [accept, hd]
        exact sameUpToStale_of_active (s := State.setErrorFlag .illegalCommand { s with edges := rest }) hp hn h
      | ok i =>
        rw [accept_of_decode hd, accept_of_decode hd]
        exact sameAnswer_exec (s := { s with edges := rest }) hp hn h i

/-- A step that enters ACTIVE is INIT, which leaves an empty block. -/
theorem bufferedLen_of_step_enters_active {s t : State} (hp : s.phase ≠ some .active) (h : step s = .next t)
    (ht : t.phase = some .active) : ∃ n, t.bufferedLen = some n := by
  obtain ⟨-, rfl⟩ | ⟨e, rest, -, ⟨-, rfl⟩ | ⟨-, rfl⟩ | ⟨w, -, -, ⟨r, -, rfl⟩ | ⟨i, -, hx⟩⟩⟩ := step_next h
  · exact absurd ht hp
  · cases ht
  · exact absurd ht hp
  · exact absurd ht hp
  · obtain ⟨-, rfl⟩ | ⟨b, -, hact, -⟩ | ⟨-, hact, -⟩ | ⟨-, -, rfl⟩ := exec_next hx
    · exact ⟨0, initialised_bufferedLen _⟩
    · exact absurd hact hp
    · exact absurd hact hp
    · exact absurd ht hp

theorem sameAnswer_step_self {s : State} (hp : s.phase ≠ some .active) : sameAnswer (step s) (step s) := by
  cases h : step s with
  | next t => exact sameUpToStale_refl (bufferedLen_of_step_enters_active hp h)
  | fault f => rfl
  | refused r => rfl

/-! ### The statements -/

/-- Settles O14: INIT answers `initialised`, whose buffer is the same whatever the buffer held. -/
theorem initLeavesAFreshState : Obligations.InitLeavesAFreshState := by
  refine fun s => ⟨Memory.setAll s.buffer 0 (zeroBytes 64), exec_init s,
    fun i hi => bufRead_ok hi (get?_setAll_zeroBytes _ hi), fun hm => setAll_zeroBytes_eq hm, fun hm t ht => ?_,
    fun hq hi t ht => ?_⟩
  · obtain rfl := Host.Outcome.next.inj ((exec_init s).symm.trans ht)
    rw [exec_init, initialised_initialised hm]
  · obtain rfl := Host.Outcome.next.inj ((exec_init s).symm.trans ht)
    rw [statusWord_of_fields (initialised_phase s) ((initialised_errSeq s).trans hq) ((initialised_errIll s).trans hi)]
    rfl

/-- Settles O20, by the cases of a command and of a step that answers. -/
theorem whoWritesTotalBitsAndDigest : Obligations.WhoWritesTotalBitsAndDigest := by
  refine ⟨fun s t h => ?_, fun s t b h => exec_update_writes h, fun s t h => exec_final_writes h,
    fun s t e rest hs h => step_writes hs h, fun s t hs h => ?_⟩
  · obtain rfl := Host.Outcome.next.inj ((exec_init s).symm.trans h)
    exact ⟨initialised_totalBits s, initialised_digestState s⟩
  · obtain rfl := Host.Outcome.next.inj ((step_nil hs).symm.trans h)
    exact ⟨rfl, rfl⟩

/-- Settles O31: the writes complete the block after the meaningful bytes, and fill the second block whole. -/
theorem paddingInTheBufferIsPadBlocks : Obligations.PaddingInTheBufferIsPadBlocks :=
  fun _ L _ hlt hM => ⟨finalBlocks_eq_padBlocks hlt hM L, fun h => padBlocks_of_le h L, fun h => padBlocks_of_ge h L,
    fun _ h => length_of_mem_padBlocks hlt h⟩

/-- Settles O43: in ACTIVE by the event of the edge, where a block is read only after its stale bytes are written over; in
any other phase the two states are the same. The outputs do not read the buffer. -/
theorem staleBytesNeverMatter : Obligations.StaleBytesNeverMatter := by
  intro s t h
  obtain ⟨ht, hcases⟩ := h
  rw [ht]
  refine ⟨?_, rfl, rfl⟩
  obtain ⟨hp, hbuf⟩ | ⟨hp, n, hn, hbytes⟩ := hcases
  · rw [hbuf]
    exact sameAnswer_step_self hp
  · exact sameAnswer_step_active hp hn hbytes

/-- Settles O17: a write in range is `Memory.set`, and one out of range faults, also as UPDATE's. -/
theorem bufWriteTouchesOneByte : Obligations.BufWriteTouchesOneByte := by
  refine ⟨fun i v m hi => ⟨Memory.set m i v, bufWrite_ok (by omega) v m, bufRead_set_self (by omega) v m,
      fun j hj => bufRead_set_of_ne hj v m⟩, fun i v m hi => bufWrite_of_ge hi v m, fun s b n hp hn hge => ?_⟩
  rw [exec_update_active hp, append_of_ge hn hge, answer_error]

/-- Settles O26, by the order in which the commands read the fields. -/
theorem absentFieldsFault : Obligations.AbsentFieldsFault := by
  refine ⟨fun s i hi hp => exec_without_phase hi hp, fun s i hi hp hn => exec_without_bufferedLen hi hp hn,
    fun s p hp hn ht => ?_, fun s block hs => compressBlock_without_digest hs block,
    fun m i hi h => bufRead_of_get?_none hi h⟩
  rw [exec_final_active hp, finish_without_totalBits hn ht, answer_error]

/-- Settles O30: the field is the 64-bit number of `total_bits + 8 p`. -/
theorem lengthFieldIsModular : Obligations.LengthFieldIsModular :=
  ⟨fun bits p _ => by rw [lengthField_eq_ofNat, BitVec.toNat_ofNat], by decide, by decide⟩

end Sys2Proof.Machine

/-! SUPPORT. The statements of 60_exceptions.md on the checked machine and on runs under its discipline (R106), with the
lemmas they need. -/

namespace Sys2Proof.Machine

/-! ### No error flag set: STATUS[3:2] = 0b00 -/

theorem statusBits_error_bits (p : Phase) (q i : Bool) :
    ((statusBits p q i).extractLsb' 2 2 == 0) = (!q && !i) := by
  cases p <;> cases q <;> cases i <;> decide

theorem errorFree_iff (s : State) :
    s.errorFree = true ↔ s.phase.isSome ∧ s.errSeq = some false ∧ s.errIll = some false := by
  rw [State.errorFree, Option.any_eq_true]
  constructor
  · rintro ⟨st, hst, hfree⟩
    obtain ⟨p, q, i, hp, hq, hi, rfl⟩ := statusWord_some hst
    rw [statusBits_error_bits, Bool.and_eq_true, Bool.not_eq_true', Bool.not_eq_true'] at hfree
    exact ⟨by rw [hp, Option.isSome_some], by rw [hq, hfree.1], by rw [hi, hfree.2]⟩
  · rintro ⟨hp, hq, hi⟩
    obtain ⟨p, hp⟩ := Option.isSome_iff_exists.1 hp
    exact ⟨_, statusWord_of_fields hp hq hi, statusBits_error_bits p false false⟩

/-- An error flag is set. -/
def State.flagged (s : State) : Prop := s.errSeq = some true ∨ s.errIll = some true

theorem errorFree_of_flagged {s : State} (h : s.flagged) : s.errorFree = false := by
  rw [← Bool.not_eq_true, errorFree_iff]
  rintro ⟨-, hq, hi⟩
  obtain h | h := h
  · simp [hq] at h
  · simp [hi] at h

theorem flagged_setErrorFlag (err : CmdError) (s : State) : (s.setErrorFlag err).flagged := by
  cases err with
  | seqError => exact .inl rfl
  | illegalCommand => exact .inr rfl

/-! ### What a step does to the edges and the phase -/

theorem exec_edges {i : Instr} {s t : State} (h : exec i s = .next t) : t.edges = s.edges := by
  obtain ⟨-, rfl⟩ | ⟨b, -, -, ha⟩ | ⟨-, -, hf⟩ | ⟨-, -, rfl⟩ := exec_next h
  · exact initialised_edges s
  · obtain ⟨n, -, ⟨-, rfl⟩ | ⟨-, hf⟩⟩ := append_ok ha
    · exact appended_edges s n b
    · obtain ⟨block, hw, bits, -, -, -, rfl⟩ := flush_ok hf
      exact appended_edges s 63 b
  · obtain ⟨p, bits, block, blocks, hw, -, -, -, -, rfl⟩ := finish_ok hf
    rfl
  · exact setErrorFlag_edges _ s

/-- A step consumes the next edge. -/
theorem step_edges {s t : State} (h : step s = .next t) : t.edges = s.edges.tail := by
  obtain ⟨hs, rfl⟩ | ⟨e, rest, hs, ⟨-, rfl⟩ | ⟨-, rfl⟩ | ⟨w, -, -, ⟨r, -, rfl⟩ | ⟨i, -, hx⟩⟩⟩ := step_next h
  · rw [hs, List.tail_nil]
  · rw [hs, List.tail_cons]
  · rw [hs, List.tail_cons]
  · rw [hs, List.tail_cons, setErrorFlag_edges]
  · rw [hs, List.tail_cons, exec_edges hx]

theorem exec_phase_isSome {i : Instr} {s t : State} (hp : s.phase.isSome) (h : exec i s = .next t) : t.phase.isSome := by
  obtain ⟨-, ht⟩ | ⟨-, -, ht⟩ | ⟨-, -, ht⟩ := exec_phase h
  · rw [ht, Option.isSome_some]
  · rw [ht, Option.isSome_some]
  · rwa [ht]

/-- No step takes the phase away again (R121). -/
theorem step_phase_isSome {s t : State} (hp : s.phase.isSome) (h : step s = .next t) : t.phase.isSome := by
  obtain ⟨-, rfl⟩ | ⟨e, rest, -, ⟨-, rfl⟩ | ⟨-, rfl⟩ | ⟨w, -, -, ⟨r, -, rfl⟩ | ⟨i, -, hx⟩⟩⟩ := step_next h
  · exact hp
  · rfl
  · exact hp
  · rwa [setErrorFlag_phase]
  · exact exec_phase_isSome (s := { s with edges := rest }) hp hx

theorem rst_of_forall_edges {s : State} (h : ∀ e ∈ s.edges, e.rst = false) : s.rst = false := by
  rw [State.rst]
  split
  · rfl
  · next e rest hs => exact h e (by simp [hs])

/-! ### Runs without a reset -/

theorem runSteps_succ_next {n : Nat} {s t : State} (h : runSteps (n + 1) s = .next t) :
    ∃ u, step s = .next u ∧ runSteps n u = .next t := by
  rw [runSteps] at h
  split at h
  next u hu => exact ⟨u, hu, h⟩
  next => cases h
  next => cases h

theorem step_keeps_no_reset {s t : State} (hr : ∀ e ∈ s.edges, e.rst = false) (h : step s = .next t) :
    ∀ e ∈ t.edges, e.rst = false := fun e he => hr e (List.mem_of_mem_tail (step_edges h ▸ he))

/-- A set error flag outlives a run without a reset (R105). -/
theorem flagged_of_runSteps {n : Nat} {s t : State} (hs : s.flagged) (hr : ∀ e ∈ s.edges, e.rst = false)
    (h : runSteps n s = .next t) : t.flagged := by
  induction n generalizing s with
  | zero => exact Host.Outcome.next.inj h ▸ hs
  | succ n ih =>
    obtain ⟨u, hu, ht⟩ := runSteps_succ_next h
    obtain ⟨hq, hi⟩ := step_keeps_set_flags hu (rst_of_forall_edges hr)
    exact ih (hs.imp hq hi) (step_keeps_no_reset hr hu) ht

theorem step_keeps_errorFree {s t : State} (hs : s.errorFree = true) (hr : s.rst = false) (he : s.raisedError = none)
    (h : step s = .next t) : t.errorFree = true := by
  obtain ⟨hp, hq, hi⟩ := (errorFree_iff s).1 hs
  obtain ⟨htq, hti⟩ := step_keeps_flags h hr he
  exact (errorFree_iff t).2 ⟨step_phase_isSome hp h, htq.trans hq, hti.trans hi⟩

theorem edges_of_raisedError {s : State} {err : CmdError} (h : s.raisedError = some err) :
    ∃ e rest, s.edges = e :: rest := by
  cases hs : s.edges with
  | nil => simp [State.raisedError, hs] at h
  | cons e rest => exact ⟨e, rest, rfl⟩

theorem flagged_of_step_raises {s t : State} {err : CmdError} (he : s.raisedError = some err) (h : step s = .next t) :
    t.flagged := by
  obtain ⟨e, rest, hs⟩ := edges_of_raisedError he
  obtain rfl := Host.Outcome.next.inj (h.symm.trans (step_of_raisedError hs he))
  exact flagged_setErrorFlag err _

/-! ### The checked run (R106) -/

theorem checkedRun_succ_of_raised {n : Nat} {s : State} {err : CmdError} (h : s.raisedError = some err) :
    checkedRun (n + 1) s = .faulted err := by
  rw [checkedRun, checkedStep_of_raised h]
  rfl

theorem checkedRun_succ_of_step {n : Nat} {s u : State} (h : s.raisedError = none) (hu : step s = .next u) :
    checkedRun (n + 1) s = checkedRun n u := by
  rw [checkedRun, checkedStep_of_none h, hu]

/-- Beside an engine's run without a reset, the checked run reaches the same state, or is faulted and leaves a flag set. -/
theorem checkedRun_of_runSteps {n : Nat} {s t : State} (hfree : s.errorFree = true) (hr : ∀ e ∈ s.edges, e.rst = false)
    (h : runSteps n s = .next t) :
    (t.errorFree = true ∧ checkedRun n s = .reached t) ∨
    (t.errorFree = false ∧ ∃ err, checkedRun n s = .faulted err) := by
  induction n generalizing s with
  | zero =>
    obtain rfl := Host.Outcome.next.inj h
    exact .inl ⟨hfree, rfl⟩
  | succ n ih =>
    obtain ⟨u, hu, ht⟩ := runSteps_succ_next h
    have hru := step_keeps_no_reset hr hu
    cases he : s.raisedError with
    | none =>
      rw [checkedRun_succ_of_step he hu]
      exact ih (step_keeps_errorFree hfree (rst_of_forall_edges hr) he hu) hru ht
    | some err =>
      have hflag := flagged_of_runSteps (flagged_of_step_raises he hu) hru ht
      exact .inr ⟨errorFree_of_flagged hflag, err, checkedRun_succ_of_raised he⟩

theorem checkedRun_faulted_of_le {n m : Nat} {s : State} {err : CmdError} (h : checkedRun n s = .faulted err)
    (hnm : n ≤ m) : checkedRun m s = .faulted err := by
  induction n generalizing s m with
  | zero => cases h
  | succ n ih =>
    cases m with
    | zero => omega
    | succ m =>
      rw [checkedRun] at h ⊢
      cases hc : checkedStep s with
      | next t =>
        simp only [hc] at h ⊢
        exact ih h (by omega)
      | fault f => simpa only [hc] using h
      | refused r => simpa only [hc] using h

theorem CmdError.rule_eq (err : CmdError) : err.rule = 101 ∨ err.rule = 102 := by
  cases err with
  | seqError => exact .inl rfl
  | illegalCommand => exact .inr rfl

/-! ### The checked step at a command edge (R101, R102) -/

section Presented

variable {s : State} {p : Phase} {w : CmdBits} {rest : List PortEdge}

theorem checkedStep_illegal {r : IllegalReason} (hp : s.phase = some p) (hs : s.edges = PortEdge.present w :: rest)
    (hd : decode w = .error r) : checkedStep s = .fault (.raised .illegalCommand) := by
  refine checkedStep_of_raised ?_
  simp only [raisedError_command hs (event_present w) hp, wordError, hd]

theorem raisedError_of_decode {i : Instr} (hp : s.phase = some p) (hs : s.edges = PortEdge.present w :: rest)
    (hd : decode w = .ok i) : s.raisedError = commandError i s := by
  rw [raisedError_command hs (event_present w) hp, wordError, hd]

theorem checkedStep_outside {i : Instr} (hp : s.phase = some p) (hs : s.edges = PortEdge.present w :: rest)
    (hd : decode w = .ok i) (hi : i ≠ .init) (hna : p ≠ .active) : checkedStep s = .fault (.raised .seqError) := by
  refine checkedStep_of_raised ?_
  obtain ⟨-, -, he⟩ | ⟨hia, -⟩ := commandError_cases hp i
  · rw [raisedError_of_decode hp hs hd, he]
  · exact absurd hia (not_or.2 ⟨hi, hna⟩)

theorem checkedStep_command {i : Instr} (hp : s.phase = some p) (hs : s.edges = PortEdge.present w :: rest)
    (hd : decode w = .ok i) (hia : i = .init ∨ p = .active) : checkedStep s = exec i { s with edges := rest } := by
  have he : s.raisedError = none := by
    rw [raisedError_of_decode hp hs hd]
    obtain ⟨hi, hna, -⟩ | ⟨-, he⟩ := commandError_cases hp i
    · exact absurd hia (not_or.2 ⟨hi, hna⟩)
    · exact he
  rw [checkedStep_of_none he, step_of_decode hp hs (event_present w) hd]

end Presented

/-! ### The statements -/

/-- Settles O25: a run without a reset raises no error and keeps both flags clear, or raises one and keeps its flag set. -/
theorem faultedRunsEndWithAnErrorFlag : Obligations.FaultedRunsEndWithAnErrorFlag := by
  intro n s t hfree hr h
  obtain ⟨ht, hrun⟩ | ⟨ht, err, hrun⟩ := checkedRun_of_runSteps hfree hr h
  · simp [ht, hrun]
  · simp [ht, hrun, CmdError.rule_eq]

/-- Settles O50: the edge's word and the phase say which error is raised; a step that raised one leaves its flag set. -/
theorem checkedStepFaultsAtEachError : Obligations.CheckedStepFaultsAtEachError := by
  refine ⟨fun s p w rest hp hs => ⟨fun r hd => checkedStep_illegal hp hs hd,
      fun i hd hi hna => checkedStep_outside hp hs hd hi hna, fun i hd hia => checkedStep_command hp hs hd hia⟩,
    fun s h => checkedStep_of_none h, rfl, rfl, fun n s err h m hnm => checkedRun_faulted_of_le h hnm, fun s t h he => ?_⟩
  obtain ⟨err, he⟩ := Option.isSome_iff_exists.1 he
  simp [State.isFinal, errorFree_of_flagged (flagged_of_step_raises he h)]

end Sys2Proof.Machine

/-! SUPPORT. The blocks of a message and of the padded message (R62, R76, R78), as lists of bytes. -/

namespace Sys2Proof.Machine

/-! ### Cutting bytes into blocks -/

theorem length_flatten_of_length_64 {bs : List (List Byte)} (h : ∀ b ∈ bs, b.length = 64) :
    bs.flatten.length = 64 * bs.length := by
  induction bs with
  | nil => rfl
  | cons b bs ih =>
    rw [List.flatten_cons, List.length_append, h b (by simp), ih fun c hc => h c (by simp [hc]), List.length_cons]
    omega

theorem blocksOf_of_lt {bs : List Byte} (h : bs.length < 64) : blocksOf bs = [] := by
  rw [blocksOf, Nat.div_eq_of_lt h]
  rfl

section Block

variable {block : List Byte} (hl : block.length = 64) (bs : List Byte)
include hl

theorem length_block_append_div : (block ++ bs).length / 64 = bs.length / 64 + 1 := by
  rw [List.length_append]
  omega

theorem drop_block_append (j : Nat) : (block ++ bs).drop (64 * (j + 1)) = bs.drop (64 * j) := by
  have hsub : 64 * (j + 1) - 64 = 64 * j := by omega
  rw [List.drop_append, List.drop_eq_nil_of_le (by omega), List.nil_append, hl, hsub]

theorem blocksOf_append : blocksOf (block ++ bs) = block :: blocksOf bs := by
  have hfirst : ((block ++ bs).drop (64 * 0)).take 64 = block := by simp [hl]
  rw [blocksOf, length_block_append_div hl, List.range_succ_eq_map, List.map_cons, hfirst, List.map_map, blocksOf]
  congr 1
  exact List.map_congr_left fun j _ => congrArg (List.take 64) (drop_block_append hl bs j)

theorem lastPart_append : lastPart (block ++ bs) = lastPart bs := by
  rw [lastPart, length_block_append_div hl, drop_block_append hl, lastPart]

end Block

/-- Whole blocks followed by less than one: these are the blocks, and that is what is left. -/
theorem blocksOf_flatten_append {bs : List (List Byte)} {r : List Byte} (hbs : ∀ b ∈ bs, b.length = 64)
    (hr : r.length < 64) : blocksOf (bs.flatten ++ r) = bs := by
  induction bs with
  | nil => exact blocksOf_of_lt hr
  | cons b bs ih =>
    rw [List.flatten_cons, List.append_assoc, blocksOf_append (hbs b (by simp)), ih fun c hc => hbs c (by simp [hc])]

theorem lastPart_flatten_append {bs : List (List Byte)} {r : List Byte} (hbs : ∀ b ∈ bs, b.length = 64)
    (hr : r.length < 64) : lastPart (bs.flatten ++ r) = r := by
  have hlen := length_flatten_of_length_64 hbs
  have hdrop : 64 * ((bs.flatten ++ r).length / 64) = bs.flatten.length := by rw [List.length_append]; omega
  rw [lastPart, hdrop, List.drop_left]

@[simp] theorem length_blocksOf (M : List Byte) : (blocksOf M).length = M.length / 64 := by simp [blocksOf]

@[simp] theorem length_lastPart (M : List Byte) : (lastPart M).length = M.length % 64 := by
  rw [lastPart, List.length_drop]
  omega

theorem length_lastPart_lt (M : List Byte) : (lastPart M).length < 64 := by
  rw [length_lastPart]
  omega

theorem length_of_mem_blocksOf {M block : List Byte} (h : block ∈ blocksOf M) : block.length = 64 := by
  obtain ⟨j, hj, rfl⟩ := List.mem_map.1 h
  rw [List.mem_range] at hj
  rw [List.length_take, List.length_drop]
  omega

/-- Nothing is lost: the blocks and the last part are the message. -/
theorem flatten_blocksOf_append_lastPart (M : List Byte) : (blocksOf M).flatten ++ lastPart M = M := by
  induction hn : M.length / 64 generalizing M with
  | zero =>
    rw [blocksOf_of_lt (by omega), lastPart, hn]
    rfl
  | succ n ih =>
    have hl : (M.take 64).length = 64 := by rw [List.length_take]; omega
    have hrest := ih (M.drop 64) (by rw [List.length_drop]; omega)
    rw [← List.take_append_drop 64 M, blocksOf_append hl, lastPart_append hl, List.flatten_cons, List.append_assoc, hrest]

theorem getD_lastPart (M : List Byte) (i : Nat) : (lastPart M).getD i 0 = M.getD (64 * (M.length / 64) + i) 0 := by
  simp [lastPart, List.getD_eq_getElem?_getD]

/-- Byte `n` of the message, in a whole block, is byte `n mod 64` of block `n / 64` (R36). -/
theorem getD_getD_blocksOf {M : List Byte} {n : Nat} (hn : n < 64 * (M.length / 64)) :
    ((blocksOf M).getD (n / 64) []).getD (n % 64) 0 = M.getD n 0 := by
  have hblock : (blocksOf M).getD (n / 64) [] = (M.drop (64 * (n / 64))).take 64 := by
    simp [blocksOf, show n / 64 < M.length / 64 by omega]
  have hpos : 64 * (n / 64) + n % 64 = n := Nat.div_add_mod n 64
  have hmod : n % 64 < 64 := Nat.mod_lt n (by decide)
  rw [hblock, List.getD_eq_getElem?_getD, List.getElem?_take_of_lt hmod, List.getElem?_drop, hpos,
    List.getD_eq_getElem?_getD]

/-! ### One more byte -/

theorem blocks_concat_of_lt {M : List Byte} (h : M.length % 64 < 63) (b : Byte) :
    blocksOf (M ++ [b]) = blocksOf M ∧ lastPart (M ++ [b]) = lastPart M ++ [b] := by
  have hM : M ++ [b] = (blocksOf M).flatten ++ (lastPart M ++ [b]) := by
    rw [← List.append_assoc, flatten_blocksOf_append_lastPart]
  have hr : (lastPart M ++ [b]).length < 64 := by simp; omega
  rw [hM]
  exact ⟨blocksOf_flatten_append (fun _ => length_of_mem_blocksOf) hr,
    lastPart_flatten_append (fun _ => length_of_mem_blocksOf) hr⟩

/-- The byte that fills the last part makes it a block. -/
theorem blocks_concat_of_full {M : List Byte} (h : M.length % 64 = 63) (b : Byte) :
    blocksOf (M ++ [b]) = blocksOf M ++ [lastPart M ++ [b]] ∧ lastPart (M ++ [b]) = [] := by
  have hM : M ++ [b] = (blocksOf M ++ [lastPart M ++ [b]]).flatten ++ [] := by
    rw [List.flatten_concat, List.append_nil, ← List.append_assoc, flatten_blocksOf_append_lastPart]
  have hbs : ∀ block ∈ blocksOf M ++ [lastPart M ++ [b]], block.length = 64 := by
    intro block hmem
    obtain hmem | hmem := List.mem_append.1 hmem
    · exact length_of_mem_blocksOf hmem
    · rw [List.mem_singleton.1 hmem, List.length_append, length_lastPart, h, List.length_singleton]
  rw [hM]
  exact ⟨blocksOf_flatten_append hbs (by simp), lastPart_flatten_append hbs (by simp)⟩

/-! ### The padded message (R78) -/

/-- The number of zero bytes of R78, for a message of `n` bytes. -/
theorem padding_count (n : Nat) :
    ((55 - (n : Int)) % 64).toNat = if n % 64 ≤ 55 then 55 - n % 64 else 119 - n % 64 := by
  split <;> omega

theorem zeroBytes_append (m n : Nat) : zeroBytes m ++ zeroBytes n = zeroBytes (m + n) := List.replicate_append_replicate

/-- One block or two, the padding of fewer than 64 bytes is the marker, R78's zeros and the length. -/
theorem flatten_padBlocks {M : List Byte} (hlt : M.length < 64) (L : Length) :
    (padBlocks M L).flatten = M ++ [0x80#8] ++ zeroBytes ((55 - (M.length : Int)) % 64).toNat ++ lenBytes L := by
  rw [padding_count, Nat.mod_eq_of_lt hlt]
  split
  · next h => rw [padBlocks_of_le h, List.flatten_singleton]
  · next h =>
    have hzeros : 119 - M.length = 63 - M.length + 56 := by omega
    rw [padBlocks_of_ge (by omega), hzeros, ← zeroBytes_append]
    simp

theorem length_padBlocks (M : List Byte) (L : Length) : (padBlocks M L).length = if M.length ≤ 55 then 1 else 2 := by
  split
  · next h => rw [padBlocks_of_le h, List.length_singleton]
  · next h => rw [padBlocks_of_ge (by omega)]; rfl

/-- The blocks that are compressed from INIT to FINAL (R62, R76). -/
def hashBlocks (M : List Byte) : List (List Byte) :=
  blocksOf M ++ padBlocks (lastPart M) (BitVec.ofNat 64 (8 * M.length))

theorem length_of_mem_hashBlocks {M block : List Byte} (h : block ∈ hashBlocks M) : block.length = 64 := by
  obtain h | h := List.mem_append.1 h
  · exact length_of_mem_blocksOf h
  · exact length_of_mem_padBlocks (length_lastPart_lt M) h

theorem flatten_hashBlocks (M : List Byte) : (hashBlocks M).flatten = paddedMessage M := by
  have hcount : ((55 - ((M.length % 64 : Nat) : Int)) % 64).toNat = ((55 - (M.length : Int)) % 64).toNat := by omega
  rw [hashBlocks, List.flatten_append, flatten_padBlocks (length_lastPart_lt M), length_lastPart, hcount, paddedMessage]
  simp only [← List.append_assoc, flatten_blocksOf_append_lastPart]

theorem blocksOf_paddedMessage (M : List Byte) : blocksOf (paddedMessage M) = hashBlocks M := by
  have h := blocksOf_flatten_append (r := []) (fun _ => length_of_mem_hashBlocks (M := M)) (by simp)
  rwa [List.append_nil, flatten_hashBlocks] at h

theorem length_paddedMessage_mod_64 (M : List Byte) : (paddedMessage M).length % 64 = 0 := by
  rw [← flatten_hashBlocks, length_flatten_of_length_64 fun _ => length_of_mem_hashBlocks]
  omega

theorem sha256_eq (M : List Byte) : sha256 M = digestBytes ((hashBlocks M).foldl compress iv) := by
  rw [sha256, blocksOf_paddedMessage]

end Sys2Proof.Machine

/-! SUPPORT. The statements of 40_commands.md and 41_padding_length.md on the three commands together (R36, R65, R66, R78)
and of 70_reset_and_hazards.md on the observation of a run (R130), with the lemmas they need. -/

namespace Sys2Proof.Machine

/-! ### Commands one after another (R39) -/

theorem runCommands_cons {i : Instr} {is : List Instr} {s t : State} (h : exec i s = .next t) :
    runCommands (i :: is) s = runCommands is t := by
  rw [runCommands, h]

theorem runCommands_cons_next {i : Instr} {is : List Instr} {s t : State} (h : runCommands (i :: is) s = .next t) :
    ∃ u, exec i s = .next u ∧ runCommands is u = .next t := by
  rw [runCommands] at h
  split at h
  next u hu => exact ⟨u, hu, h⟩
  next => cases h
  next => cases h

theorem runCommands_append {is js : List Instr} {s t : State} (h : runCommands is s = .next t) :
    runCommands (is ++ js) s = runCommands js t := by
  induction is generalizing s with
  | nil => rw [List.nil_append, Host.Outcome.next.inj h]
  | cons i is ih =>
    obtain ⟨u, hu, ht⟩ := runCommands_cons_next h
    rw [List.cons_append, runCommands_cons hu, ih ht]

theorem flushCount_append {is js : List Instr} {s t : State} (h : runCommands is s = .next t) :
    flushCount (is ++ js) s = flushCount is s + flushCount js t := by
  induction is generalizing s with
  | nil => rw [List.nil_append, Host.Outcome.next.inj h, flushCount, Nat.zero_add]
  | cons i is ih =>
    obtain ⟨u, hu, ht⟩ := runCommands_cons_next h
    simp only [List.cons_append, flushCount, hu, ih ht, Nat.add_assoc]

/-! ### After INIT and the UPDATEs of a message (R36) -/

/-- What `t` holds when INIT and the UPDATEs of `M` have been run from `s`: the whole blocks are compressed and counted, the
last part is in the buffer from index 0 on. -/
structure Absorbed (s : State) (M : List Byte) (t : State) : Prop where
  phase : t.phase = some .active
  bufferedLen : t.bufferedLen = some (lastPart M).length
  totalBits : t.totalBits = some (BitVec.ofNat 64 (512 * (blocksOf M).length))
  digestState : t.digestState = some ((blocksOf M).foldl compress iv)
  bytes : ∀ i < (lastPart M).length, bufRead i t.buffer = .ok ((lastPart M).getD i 0)
  errSeq : t.errSeq = s.errSeq
  errIll : t.errIll = s.errIll
  edges : t.edges = s.edges

theorem absorbed_init (s : State) : Absorbed s [] s.initialised where
  phase := initialised_phase s
  bufferedLen := initialised_bufferedLen s
  totalBits := initialised_totalBits s
  digestState := initialised_digestState s
  bytes i hi := absurd hi (by simp)
  errSeq := initialised_errSeq s
  errIll := initialised_errIll s
  edges := initialised_edges s

/-- A byte that leaves room in the block is only appended, and `total_bits` stays. -/
theorem Absorbed.update_of_lt {s t : State} {M : List Byte} (h : Absorbed s M t) (hlt : M.length % 64 < 63) (b : Byte) :
    ∃ u, exec (.update b) t = .next u ∧ Absorbed s (M ++ [b]) u ∧ u.totalBits = t.totalBits := by
  obtain ⟨hblocks, hlast⟩ := blocks_concat_of_lt hlt b
  have hn : (lastPart M).length < 63 := by rwa [length_lastPart]
  refine ⟨_, exec_update_of_lt h.phase h.bufferedLen hn b, ?_, appended_totalBits t _ b⟩
  refine ⟨h.phase, ?_, ?_, ?_, fun i hi => ?_, h.errSeq, h.errIll, h.edges⟩
  · rw [appended_bufferedLen, hlast, List.length_append, List.length_singleton]
  · rw [appended_totalBits, hblocks, h.totalBits]
  · rw [appended_digestState, hblocks, h.digestState]
  · rw [hlast, List.length_append, List.length_singleton] at hi
    rw [appended_buffer, hlast]
    by_cases hin : i = (lastPart M).length
    · rw [hin, bufRead_set_self (by omega), List.getD_append_right _ _ _ _ le_rfl, Nat.sub_self, List.getD_cons_zero]
    · rw [bufRead_set_of_ne hin, h.bytes i (by omega), List.getD_append _ _ _ _ (by omega)]

/-- The byte that completes the block has it compressed and counted. -/
theorem Absorbed.update_of_full {s t : State} {M : List Byte} (h : Absorbed s M t) (hfull : M.length % 64 = 63) (b : Byte) :
    ∃ u, exec (.update b) t = .next u ∧ Absorbed s (M ++ [b]) u ∧ u.totalBits ≠ t.totalBits := by
  obtain ⟨hblocks, hlast⟩ := blocks_concat_of_full hfull b
  have hn : (lastPart M).length = 63 := by rwa [length_lastPart]
  have hlen : t.bufferedLen = some 63 := by rw [h.bufferedLen, hn]
  refine ⟨_, exec_update_flush h.phase hlen hn (hn ▸ h.bytes) h.digestState h.totalBits b, ?_, ?_⟩
  · refine ⟨h.phase, ?_, ?_, ?_, fun i hi => absurd hi (by simp [hlast]), h.errSeq, h.errIll, h.edges⟩
    · rw [hlast, List.length_nil]
    · have hcount : 512 * (blocksOf (M ++ [b])).length = 512 * (blocksOf M).length + 512 := by
        rw [hblocks, List.length_append, List.length_singleton, Nat.mul_add]
      rw [hcount, BitVec.ofNat_add]
    · rw [hblocks, List.foldl_concat]
  · rw [h.totalBits]
    intro heq
    have hzero := add_eq_left.1 (Option.some.inj heq)
    exact absurd hzero (by decide)

theorem Absorbed.update {s t : State} {M : List Byte} (h : Absorbed s M t) (b : Byte) :
    ∃ u, exec (.update b) t = .next u ∧ Absorbed s (M ++ [b]) u := by
  obtain hlt | hfull : M.length % 64 < 63 ∨ M.length % 64 = 63 := by omega
  · obtain ⟨u, hu, habs, -⟩ := h.update_of_lt hlt b
    exact ⟨u, hu, habs⟩
  · obtain ⟨u, hu, habs, -⟩ := h.update_of_full hfull b
    exact ⟨u, hu, habs⟩

theorem absorb_concat (M : List Byte) (b : Byte) :
    Instr.init :: (M ++ [b]).map .update = (.init :: M.map .update) ++ [.update b] := by
  rw [List.map_append, List.cons_append, List.map_singleton]

theorem runCommands_absorb (s : State) (M : List Byte) :
    ∃ t, runCommands (.init :: M.map .update) s = .next t ∧ Absorbed s M t := by
  induction M using List.reverseRecOn with
  | nil => exact ⟨_, runCommands_cons (exec_init s), absorbed_init s⟩
  | append_singleton M b ih =>
    obtain ⟨t, ht, habs⟩ := ih
    obtain ⟨u, hu, habs'⟩ := habs.update b
    exact ⟨u, by rw [absorb_concat, runCommands_append ht, runCommands_cons hu, runCommands], habs'⟩

/-- The flushes of a message are counted by its length (R66). -/
theorem flushCount_absorb (s : State) (M : List Byte) : flushCount (.init :: M.map .update) s = M.length / 64 := by
  induction M using List.reverseRecOn with
  | nil => simp [flushCount, exec_init]
  | append_singleton M b ih =>
    obtain ⟨t, ht, habs⟩ := runCommands_absorb s M
    rw [absorb_concat, flushCount_append ht, ih, List.length_append, List.length_singleton]
    obtain hlt | hfull : M.length % 64 < 63 ∨ M.length % 64 = 63 := by omega
    · obtain ⟨u, hu, -, htotal⟩ := habs.update_of_lt hlt b
      have hcount : flushCount [.update b] t = 0 := by simp [flushCount, hu, htotal]
      omega
    · obtain ⟨u, hu, -, htotal⟩ := habs.update_of_full hfull b
      have hcount : flushCount [.update b] t = 1 := by simp [flushCount, hu, htotal]
      omega

/-! ### FINAL, and a whole hash (R65, R78) -/

/-- The counted blocks and the bytes left give the length of the message, mod 2^64 (R70). -/
theorem lengthField_absorbed (M : List Byte) :
    BitVec.ofNat 64 ((BitVec.ofNat 64 (512 * (blocksOf M).length)).toNat + 8 * (lastPart M).length) =
      BitVec.ofNat 64 (8 * M.length) := by
  refine BitVec.eq_of_toNat_eq ?_
  simp only [BitVec.toNat_ofNat, length_blocksOf, length_lastPart]
  omega

theorem Absorbed.final {s t : State} {M : List Byte} (h : Absorbed s M t) :
    exec .final t = .next { t with
      buffer := [], bufferedLen := none, totalBits := none, phase := some .done, work := none
      digestState := some ((hashBlocks M).foldl compress iv) } := by
  rw [exec_final_eq h.phase h.bufferedLen (length_lastPart_lt M) h.bytes h.digestState h.totalBits, lengthField_absorbed,
    hashBlocks, List.foldl_append]

/-- What `t` holds when the commands of one hash of `M` have been run from `s`. -/
structure Hashed (s : State) (M : List Byte) (t : State) : Prop where
  phase : t.phase = some .done
  digestState : t.digestState = some ((hashBlocks M).foldl compress iv)
  errSeq : t.errSeq = s.errSeq
  errIll : t.errIll = s.errIll

theorem Hashed.digest {s t : State} {M : List Byte} (h : Hashed s M t) : t.digest = some (sha256 M) := by
  rw [digest_done h.phase, h.digestState, sha256_eq, Option.map_some]

theorem runCommands_hash (s : State) (M : List Byte) : ∃ t, runCommands (hashCommands M) s = .next t ∧ Hashed s M t := by
  obtain ⟨t, ht, habs⟩ := runCommands_absorb s M
  have hrun := (runCommands_append (js := [.final]) ht).trans (runCommands_cons habs.final)
  exact ⟨_, hrun, rfl, rfl, habs.errSeq, habs.errIll⟩

/-! ### The edges that present the commands (R39, R65) -/

section Edges

variable {s t : State} (edges : List PortEdge)

theorem flush_with_edges (h : s.flush = .ok t) : State.flush { s with edges := edges } = .ok { t with edges := edges } := by
  obtain ⟨block, hw, bits, hb, hs, ht, rfl⟩ := flush_ok h
  exact flush_of (s := { s with edges := edges }) hb hs ht

theorem append_with_edges {b : Byte} (h : s.append b = .ok t) :
    State.append b { s with edges := edges } = .ok { t with edges := edges } := by
  obtain ⟨n, hn, ⟨hlt, rfl⟩ | ⟨rfl, hf⟩⟩ := append_ok h
  · rw [append_eq (s := { s with edges := edges }) hn (by omega), if_neg (by omega)]
    rfl
  · rw [append_eq (s := { s with edges := edges }) hn (by decide), if_pos rfl]
    exact flush_with_edges edges hf

theorem finish_with_edges (h : s.finish = .ok t) :
    State.finish { s with edges := edges } = .ok { t with edges := edges } := by
  obtain ⟨p, bits, block, blocks, hw, hp, hb, hs, hbl, rfl⟩ := finish_ok h
  exact finish_of (s := { s with edges := edges }) hp hb hs hbl

/-- No command reads or changes what the host drives next. -/
theorem exec_with_edges {i : Instr} (h : exec i s = .next t) :
    exec i { s with edges := edges } = .next { t with edges := edges } := by
  obtain ⟨rfl, rfl⟩ | ⟨b, rfl, hp, ha⟩ | ⟨rfl, hp, hf⟩ | ⟨hi, hp, rfl⟩ := exec_next h
  · simp only [exec_init, State.initialised]
  · rw [exec_update_active (s := { s with edges := edges }) hp, append_with_edges edges ha, answer_ok]
  · rw [exec_final_active (s := { s with edges := edges }) hp, finish_with_edges edges hf, answer_ok]
  · rw [exec_outside (s := { s with edges := edges }) hi hp]
    rfl

end Edges

theorem runSteps_succ_of_step {n : Nat} {s u : State} (h : step s = .next u) : runSteps (n + 1) s = runSteps n u := by
  rw [runSteps, h]

/-- At the edge that presents it, a command does what it does by itself. -/
theorem step_present {s u : State} {i : Instr} (edges : List PortEdge) (hp : s.phase.isSome) (h : exec i s = .next u) :
    step { s with edges := PortEdge.present (encode i) :: edges } = .next { u with edges := edges } := by
  obtain ⟨p, hp⟩ := Option.isSome_iff_exists.1 hp
  have hstep := step_of_decode (s := { s with edges := PortEdge.present (encode i) :: edges }) hp rfl (event_present _)
    (decode_encode i)
  rw [hstep, exec_with_edges edges h]

/-- Presented at edges, with idle edges anywhere between, the commands do what they do one after another. -/
theorem runSteps_of_runCommands {es : List PortEdge} (rest : List PortEdge) {is : List Instr} {s t : State}
    (hp : s.phase.isSome) (hes : es.filter (fun e => e.event ≠ .idle) = commandEdges is) (h : runCommands is s = .next t) :
    runSteps es.length { s with edges := es ++ rest } = .next { t with edges := rest } := by
  induction es generalizing is s with
  | nil =>
    obtain rfl : is = [] := by simpa [commandEdges] using hes.symm
    obtain rfl := Host.Outcome.next.inj h
    rfl
  | cons e es ih =>
    by_cases he : e.event = .idle
    · rw [List.filter_cons_of_neg (by simpa using he)] at hes
      rw [List.length_cons, List.cons_append, runSteps_succ_of_step (step_idle rfl he)]
      exact ih (s := s) hp hes h
    · rw [List.filter_cons_of_pos (by simpa using he)] at hes
      cases is with
      | nil => simp [commandEdges] at hes
      | cons i is =>
        obtain ⟨rfl, htail⟩ := List.cons.inj hes
        obtain ⟨u, hu, ht⟩ := runCommands_cons_next h
        rw [List.length_cons, List.cons_append, runSteps_succ_of_step (step_present _ hp hu)]
        exact ih (s := u) (exec_phase_isSome hp hu) htail ht

/-- The run of a host that presents the commands of one hash, idle edges anywhere between. -/
theorem runSteps_hash {s : State} {M : List Byte} {es rest : List PortEdge} (hp : s.phase.isSome)
    (hs : s.edges = es ++ rest) (hes : es.filter (fun e => e.event ≠ .idle) = commandEdges (hashCommands M)) :
    ∃ t, runSteps es.length s = .next t ∧ Hashed s M t ∧ t.edges = rest := by
  obtain ⟨t, ht, hhash⟩ := runCommands_hash s M
  refine ⟨{ t with edges := rest }, ?_, ⟨hhash.phase, hhash.digestState, hhash.errSeq, hhash.errIll⟩, rfl⟩
  have hrun := runSteps_of_runCommands rest hp hes ht
  rwa [← hs] at hrun

/-- Such a host resets the engine at no edge. -/
theorem no_reset_of_filter {es : List PortEdge} {is : List Instr}
    (hes : es.filter (fun e => e.event ≠ .idle) = commandEdges is) : ∀ e ∈ es, e.rst = false := by
  intro e he
  by_cases hidle : e.event = .idle
  · rw [← Bool.not_eq_true]
    intro hr
    simp [event_reset_of_rst hr] at hidle
  · have hmem : e ∈ commandEdges is := hes ▸ List.mem_filter.2 ⟨he, by simpa using hidle⟩
    obtain ⟨i, -, rfl⟩ := List.mem_map.1 hmem
    rfl

/-! ### The statements -/

/-- Settles O44: what `Absorbed` says of the state, with the last part and the blocks read byte by byte. -/
theorem messageBytesLandInOrder : Obligations.MessageBytesLandInOrder := by
  intro s M
  obtain ⟨t, ht, habs⟩ := runCommands_absorb s M
  refine ⟨t, ht, habs.phase, ?_, ?_, habs.digestState, fun n hge hlt => ?_, fun n hn => getD_getD_blocksOf hn, habs.errSeq,
    habs.errIll, habs.edges⟩
  · rw [habs.bufferedLen, length_lastPart]
  · rw [habs.totalBits, length_blocksOf]
  · have hpos : 64 * (M.length / 64) + n % 64 = n := by omega
    rw [habs.bytes (n % 64) (by rw [length_lastPart]; omega), getD_lastPart, hpos]

/-- Settles O46: the blocks from INIT to FINAL flatten to the padded message, and 64-byte blocks are what it is cut into. -/
theorem flushedAndFinalBlocksAreThePaddedMessage : Obligations.FlushedAndFinalBlocksAreThePaddedMessage := by
  refine fun M => ⟨flatten_hashBlocks M, blocksOf_paddedMessage M, fun s => ?_, length_paddedMessage_mod_64 M,
    fun k hk => by omega⟩
  obtain ⟨t, ht, hhash⟩ := runCommands_hash s M
  exact ⟨t, ht, hhash.digestState⟩

/-- Settles O47: a flush each time a byte completes a block, and one final block or two by the length of the last part. -/
theorem compressionCount : Obligations.CompressionCount := by
  intro M
  refine ⟨fun s => ⟨flushCount_absorb s M, ?_⟩, length_blocksOf M, fun h => ?_, fun h => ?_⟩
  · obtain ⟨t, ht, habs⟩ := runCommands_absorb s M
    refine ⟨t, _, _, _, _, _, ht, habs.bufferedLen, habs.totalBits, habs.digestState,
      finalBlocks_eq_padBlocks (length_lastPart_lt M) habs.bytes _, ?_, habs.final, ?_⟩
    · rw [length_padBlocks, length_lastPart]
    · rw [lengthField_eq_ofNat, lengthField_absorbed, hashBlocks, List.foldl_append]
  · rw [length_padBlocks, length_lastPart, if_pos h]
  · rw [length_padBlocks, length_lastPart, if_neg (by omega)]

/-- Settles O45: the steps do what the commands do, whose state in DONE holds the fold over the padded message. -/
theorem digestIsAFunctionOfTheMessage : Obligations.DigestIsAFunctionOfTheMessage := by
  intro s p M es rest hp hs hes
  obtain ⟨t, ht, hhash, hrest⟩ := runSteps_hash (by rw [hp, Option.isSome_some]) hs hes
  exact ⟨t, ht, hhash.phase, hhash.digest, length_digestBytes _, hhash.errSeq, hhash.errIll, hrest⟩

/-- Settles O51: the run ends with clear flags, so the checked run reaches the same state, which is final. -/
theorem checkedRunObservesTheDigest : Obligations.CheckedRunObservesTheDigest := by
  intro s M hfree hes
  obtain ⟨hp, hq, hi⟩ := (errorFree_iff s).1 hfree
  obtain ⟨t, ht, hhash, hend⟩ := runSteps_hash hp (List.append_nil _).symm hes
  have htq := hhash.errSeq.trans hq
  have hti := hhash.errIll.trans hi
  have htfree : t.errorFree = true := (errorFree_iff t).2 ⟨by rw [hhash.phase, Option.isSome_some], htq, hti⟩
  have hready : t.cmdReady = some true := cmdReady_of_rst_false hhash.phase (by rw [State.rst, hend])
  refine ⟨t, ?_, by simp [State.isFinal, hend, hready, htfree], ?_⟩
  · obtain ⟨-, hrun⟩ | ⟨hbad, -⟩ := checkedRun_of_runSteps hfree (no_reset_of_filter hes) ht
    · exact hrun
    · simp [htfree] at hbad
  · rw [State.observe, statusPort_of_ready hready, statusWord_done hhash.phase htq hti, digestPort_of_ready hready,
      hhash.digest, Option.map_some]

end Sys2Proof.Machine

/-! SUPPORT. The statement of 30_encoding.md on the assembler and the disassembler (R55), with the lemmas it needs. -/

namespace Sys2Proof.Machine

/-! ### Text without white space, quotes and comments -/

/-- A character that no lexical rule of R55 singles out. -/
def plainChar (c : Char) : Bool := !asmSpace c && c != ';' && c != '\'' && c != '"'

theorem plainChar_iff (c : Char) :
    plainChar c = true ↔ asmSpace c = false ∧ c ≠ ';' ∧ c ≠ '\'' ∧ c ≠ '"' := by
  simp [plainChar, and_assoc]

/-- Text in which neither the separator nor a quote occurs is one piece. -/
theorem asmSplit_eq_singleton {sep : Char} {cs : List Char} (h : ∀ c ∈ cs, c ≠ sep ∧ c ≠ '\'' ∧ c ≠ '"')
    (acc : List Char) :
    asmSplit sep cs false acc = [acc.reverse ++ cs] := by
  induction cs generalizing acc with
  | nil => rw [asmSplit, List.append_nil]
  | cons c cs ih =>
    obtain ⟨hsep, hquote, hdouble⟩ := h c (by simp)
    have hopen : (c == '"') = false := beq_eq_false_iff_ne.2 hdouble
    rw [asmSplit, if_neg hsep, hopen, ih fun d hd => h d (by simp [hd]), List.reverse_cons, List.append_assoc]
    · rfl
    · rintro c' cs' rfl
      exact absurd rfl hquote

theorem asmStripComment_eq_self {cs : List Char} (h : ∀ c ∈ cs, c ≠ ';' ∧ c ≠ '\'' ∧ c ≠ '"') :
    asmStripComment cs = cs := by
  rw [asmStripComment, asmSplit_eq_singleton h]
  rfl

theorem asmTrim_eq_self {cs : List Char} (hhead : ∀ c ∈ cs.head?, asmSpace c = false)
    (hlast : ∀ c ∈ cs.getLast?, asmSpace c = false) : asmTrim cs = cs := by
  have hdrop {l : List Char} (h : ∀ c ∈ l.head?, asmSpace c = false) : l.dropWhile asmSpace = l := by
    cases l with
    | nil => rfl
    | cons c l => rw [List.dropWhile_cons_of_neg (by simp [h c rfl])]
  rw [asmTrim, hdrop hhead, hdrop (by rwa [List.head?_reverse]), List.reverse_reverse]

/-! ### A line that is a word and one operand -/

/-- A line by its first word and what follows it: `asmParse?` when the line is not blank. -/
def asmCommand? (word args : List Char) : Option AsmLine :=
  if word = "INIT".toList then if args = [] then some .init else none
  else if word = "UPDATE".toList then (asmOperand? args).map .update
  else if word = "FINAL".toList then if args = [] then some .final else none
  else if word = "UPDATE_BYTES".toList then (asmOperands? args).map .updateBytes
  else if word = "UPDATE_STR".toList then (asmQuoted? args).map .updateStr
  else if word = "HASH".toList then (asmQuoted? args).map .hash
  else none

theorem asmParse?_eq (cs : List Char) :
    asmParse? cs =
      let line := asmTrim (asmStripComment cs)
      if line = [] then some .blank
      else asmCommand? (line.takeWhile fun c => !asmSpace c) (asmTrim (line.dropWhile fun c => !asmSpace c)) := rfl

section WordAndOperand

variable {word args : List Char} (hword : ∀ c ∈ word, plainChar c = true) (hargs : ∀ c ∈ args, plainChar c = true)

include hargs in
theorem asmTrim_space_cons : asmTrim (' ' :: args) = args := by
  have hspace {c : Char} (hc : c ∈ args) : asmSpace c = false := ((plainChar_iff c).1 (hargs c hc)).1
  have htrim : asmTrim args = args :=
    asmTrim_eq_self (fun c hc => hspace (List.mem_of_mem_head? hc)) fun c hc => hspace (List.mem_of_mem_getLast? hc)
  rw [asmTrim, List.dropWhile_cons_of_pos (by decide), ← asmTrim, htrim]

include hword hargs

/-- A line of two plain parts is read as just these parts. -/
theorem asmParse?_word_args (hw : word ≠ []) (ha : args ≠ []) :
    asmParse? (word ++ ' ' :: args) = asmCommand? word args := by
  have hplain : ∀ c ∈ word ++ ' ' :: args, c ≠ ';' ∧ c ≠ '\'' ∧ c ≠ '"' := by
    intro c hc
    obtain hc | hc := List.mem_append.1 hc
    · exact ((plainChar_iff c).1 (hword c hc)).2
    · obtain rfl | hc := List.mem_cons.1 hc
      · decide
      · exact ((plainChar_iff c).1 (hargs c hc)).2
  have hnospace : ∀ c ∈ word, (!asmSpace c) = true := fun c hc => by simp [((plainChar_iff c).1 (hword c hc)).1]
  have htrim : asmTrim (word ++ ' ' :: args) = word ++ ' ' :: args := by
    refine asmTrim_eq_self (fun c hc => ?_) fun c hc => ?_
    · rw [List.head?_append_of_ne_nil _ hw] at hc
      exact ((plainChar_iff c).1 (hword c (List.mem_of_mem_head? hc))).1
    · rw [List.getLast?_append_cons, List.getLast?_cons_of_ne_nil ha] at hc
      exact ((plainChar_iff c).1 (hargs c (List.mem_of_mem_getLast? hc))).1
  rw [asmParse?_eq, asmStripComment_eq_self hplain, htrim]
  have htake : (word ++ ' ' :: args).takeWhile (fun c => !asmSpace c) = word := by
    rw [List.takeWhile_append_of_pos hnospace, List.takeWhile_cons_of_neg (by decide), List.append_nil]
  have hdrop : (word ++ ' ' :: args).dropWhile (fun c => !asmSpace c) = ' ' :: args := by
    rw [List.dropWhile_append_of_pos hnospace, List.dropWhile_cons_of_neg (by decide)]
  simp only [htake, hdrop, asmTrim_space_cons hargs]
  exact if_neg (by simp)

end WordAndOperand

/-! ### Hexadecimal digits -/

theorem asmHexDigit?_hexDigit : ∀ n < 16, asmHexDigit? (hexDigit n) = some n := by decide

theorem plainChar_hexDigit : ∀ n < 16, plainChar (hexDigit n) = true := by decide

theorem plainChar_of_mem_hexDigits {k n : Nat} {c : Char} (h : c ∈ hexDigits k n) : plainChar c = true := by
  obtain ⟨j, -, rfl⟩ := List.mem_map.1 h
  exact plainChar_hexDigit _ (Nat.mod_lt _ (by decide))

/-- A number written as `0x` and digits. -/
theorem plainChar_of_mem_hex {k n : Nat} {c : Char} (h : c ∈ '0' :: 'x' :: hexDigits k n) : plainChar c = true := by
  obtain rfl | rfl | h : c = '0' ∨ c = 'x' ∨ c ∈ hexDigits k n := by simpa using h
  · decide
  · decide
  · exact plainChar_of_mem_hexDigits h

theorem asmOperand?_zero_x (hi lo : Char) : asmOperand? ['0', 'x', hi, lo] =
    (asmHexDigit? hi).bind fun a => (asmHexDigit? lo).bind fun b => some (.hex (16 * a + b)) := rfl

theorem asmOperand?_hex {n : Nat} (hn : n < 256) : asmOperand? ('0' :: 'x' :: hexDigits 2 n) = some (.hex n) := by
  have hdigits : hexDigits 2 n = [hexDigit (n / 16 % 16), hexDigit (n % 16)] := by
    simp [hexDigits, List.range_succ]
  have hvalue : 16 * (n / 16 % 16) + n % 16 = n := by omega
  rw [hdigits, asmOperand?_zero_x, asmHexDigit?_hexDigit _ (Nat.mod_lt _ (by decide)),
    asmHexDigit?_hexDigit _ (Nat.mod_lt _ (by decide)), Option.bind_some, Option.bind_some, hvalue]

/-! ### Lines of the disassembler -/

theorem assembleLine?_update_hex (b : Byte) :
    assembleLine? ("UPDATE".toList ++ ' ' :: '0' :: 'x' :: hexDigits 2 b.toNat) = some [encode (.update b)] := by
  have hparse := asmParse?_word_args (word := "UPDATE".toList) (args := '0' :: 'x' :: hexDigits 2 b.toNat) (by simp; decide)
    (fun c hc => plainChar_of_mem_hex hc) (by simp) (by simp)
  have hcommand : asmCommand? "UPDATE".toList ('0' :: 'x' :: hexDigits 2 b.toNat) = some (.update (.hex b.toNat)) := by
    rw [asmCommand?, if_neg (by simp), if_pos rfl, asmOperand?_hex b.isLt]
    rfl
  have hwf : (AsmLine.update (.hex b.toNat)).wf = true := decide_eq_true b.isLt
  rw [assembleLine?, hparse, hcommand, Option.bind_some, expandLine?_of_wf hwf]
  simp [lineCommands, operandByte]

/-- `.word` is no mnemonic (R55). -/
theorem assembleLine?_word_hex (n : Nat) : assembleLine? (".word".toList ++ ' ' :: '0' :: 'x' :: hexDigits 4 n) = none := by
  have hparse := asmParse?_word_args (word := ".word".toList) (args := '0' :: 'x' :: hexDigits 4 n) (by simp; decide)
    (fun c hc => plainChar_of_mem_hex hc) (by simp) (by simp)
  have hcommand (args : List Char) : asmCommand? ".word".toList args = none := rfl
  rw [assembleLine?, hparse, hcommand, Option.bind_none]

theorem disassemble_encode_update (b : Byte) :
    disassemble (encode (.update b)) = "UPDATE".toList ++ ' ' :: '0' :: 'x' :: hexDigits 2 b.toNat := by
  rw [disassemble, decode_encode]
  rfl

theorem disassemble_illegal {w : CmdBits} {r : IllegalReason} (h : decode w = .error r) :
    disassemble w = ".word".toList ++ ' ' :: '0' :: 'x' :: hexDigits 4 w.toNat := by
  rw [disassemble, h]
  rfl

/-! ### The statement -/

/-- Settles O48: a line of the disassembler is a word and plain text, which the assembler reads back; `.word` is no
mnemonic. -/
theorem assemblerInvertsTheDisassembler : Obligations.AssemblerInvertsTheDisassembler := by
  refine ⟨fun i => ?_, fun w h => ?_, by decide +kernel, by decide +kernel, by decide +kernel, by decide +kernel⟩
  · cases i with
    | init => decide +kernel
    | update b => rw [disassemble_encode_update, assembleLine?_update_hex]
    | final => decide +kernel
  · cases hd : decode w with
    | ok i => simp [hd, Except.toOption] at h
    | error r => rw [disassemble_illegal hd, assembleLine?_word_hex]

end Sys2Proof.Machine

/-! SUPPORT. The statements on the constant tables (R18, R19) and the published digests (95_test_vectors.md), with the lemmas
they need. -/

namespace Sys2Proof.Machine

/-! ### The published digests -/

theorem hashBlocks_abc : hashBlocks [0x61#8, 0x62#8, 0x63#8] = [abcBlock] := by decide

/-- The two final blocks of 56 bytes of "a", compressed. -/
theorem foldl_compress_hashBlocks_replicate_56 : (hashBlocks (List.replicate 56 0x61#8)).foldl compress iv =
    ⟨0xb35439a4#32, 0xac6f0948#32, 0xb6d6f9e3#32, 0xc6af0f5f#32, 0x590ce20f#32, 0x1bde7090#32, 0xef797068#32,
     0x6ec6738a#32⟩ := by decide +kernel

/-! ### Roots of primes as constants -/

/-- The first 64 primes, in order. -/
def firstPrimes : List Nat :=
  [2, 3, 5, 7, 11, 13, 17, 19, 23, 29, 31, 37, 41, 43, 47, 53, 59, 61, 67, 71, 73, 79, 83, 89, 97, 101, 103, 107, 109, 113,
   127, 131, 137, 139, 149, 151, 157, 163, 167, 173, 179, 181, 191, 193, 197, 199, 211, 223, 227, 229, 233, 239, 241, 251,
   257, 263, 269, 271, 277, 281, 283, 293, 307, 311]

theorem prime_firstPrimes : ∀ t < 64, Nat.Prime (firstPrimes.getD t 0) := by decide +kernel

/-- The table rises, and from one entry up to the next only the first is prime. -/
theorem firstPrimes_gap : ∀ t < 63,
    firstPrimes.getD t 0 ≤ firstPrimes.getD (t + 1) 0 ∧
    Nat.count (fun k => Nat.Prime (firstPrimes.getD t 0 + k)) (firstPrimes.getD (t + 1) 0 - firstPrimes.getD t 0) = 1 := by
  decide +kernel

/-- As many primes are below an entry of the table as stand before it. -/
theorem count_firstPrimes {t : Nat} (ht : t < 64) : Nat.count Nat.Prime (firstPrimes.getD t 0) = t := by
  induction t with
  | zero => decide
  | succ t ih =>
    obtain ⟨hle, hgap⟩ := firstPrimes_gap t (by omega)
    rw [← Nat.add_sub_cancel' hle, Nat.count_add, hgap, ih (by omega)]

/-- The integer part of the `k`-th root of `p`. -/
def rootFloor (k p : Nat) : Nat := Nat.findGreatest (fun a => a ^ k ≤ p) p

/-- The root with this integer part and these 32 bits of fraction, times `2 ^ 32`. -/
def rootOf (k p : Nat) (w : Word) : Nat := rootFloor k p * 2 ^ 32 + w.toNat

theorem ofNat_rootOf (k p : Nat) (w : Word) : BitVec.ofNat 32 (rootOf k p w) = w := by
  refine BitVec.eq_of_toNat_eq ?_
  rw [BitVec.toNat_ofNat, rootOf]
  omega

/-- The words of `IV` bound the square roots from below and above (R18). -/
theorem iv_squareRoots : ∀ i < 8,
    let p := firstPrimes.getD i 0
    let m := rootOf 2 p (iv.toList.getD i 0)
    m ^ 2 ≤ p * 2 ^ 64 ∧ p * 2 ^ 64 < (m + 1) ^ 2 := by decide +kernel

/-- The words of `K` bound the cube roots from below and above (R19). -/
theorem roundConstants_cubeRoots : ∀ t < 64,
    let p := firstPrimes.getD t 0
    let m := rootOf 3 p (roundConstants.getD t 0)
    m ^ 3 ≤ p * 2 ^ 96 ∧ p * 2 ^ 96 < (m + 1) ^ 3 := by decide +kernel

/-! ### The statements -/

/-- Settles O37: the digest is the fold over the message's padded blocks, evaluated. -/
theorem publishedDigests : Obligations.PublishedDigests := by
  refine ⟨?_, ?_⟩
  · rw [sha256_eq, hashBlocks_abc, List.foldl_cons, List.foldl_nil, compress_iv_abcBlock]
  · rw [sha256_eq, foldl_compress_hashBlocks_replicate_56]

/-- Settles O38: each word, put behind the integer part of the root, is the root rounded down. -/
theorem initialValuesAreSquareRoots : Obligations.InitialValuesAreSquareRoots := by
  refine ⟨rfl, fun i hi => ?_⟩
  obtain ⟨hle, hlt⟩ := iv_squareRoots i hi
  exact ⟨_, _, prime_firstPrimes i (by omega), count_firstPrimes (by omega), hle, hlt, (ofNat_rootOf _ _ _).symm⟩

/-- Settles O39: each word, put behind the integer part of the root, is the root rounded down. -/
theorem roundConstantsAreCubeRoots : Obligations.RoundConstantsAreCubeRoots := by
  refine ⟨rfl, fun t ht => ?_⟩
  obtain ⟨hle, hlt⟩ := roundConstants_cubeRoots t ht
  exact ⟨_, _, prime_firstPrimes t ht, count_firstPrimes ht, hle, hlt, (ofNat_rootOf _ _ _).symm⟩

end Sys2Proof.Machine
